-- ==== Sys2Proof/Word.lean ====
section
/-!
DEFINITION. The widths of the CORE (spec/00_scope.md R7, R9, R10): every quantity is an unsigned bit string.
-/

namespace Sys2Proof

/-- 8 bits: a memory byte, a general register, a timer, the immediate `nn` (R7, R70). -/
abbrev Byte := BitVec 8

/-- 16 bits: an instruction word, `pc`, `I`, a stack entry (R7, R24, R26, R27). -/
abbrev Word := BitVec 16

/-- 4 bits: a register number `x` or `y`, the row count or sub-opcode `n` (R70). -/
abbrev Nibble := BitVec 4

/-- 12 bits: the address immediate `nnn` (R70). -/
abbrev Addr12 := BitVec 12

end Sys2Proof
end

