-- ==== Sys2Proof/Syntax.lean ====
section
/-!
DEFINITION. The instructions: one constructor per row of spec/opcode_table.json, in the table's order, under the names of
spec/30_encoding.md R80. Register numbers and immediates have the widths of R70, so no term holds an operand outside its field.
-/

namespace Sys2Proof

/-- The closed set of 34 instructions (30_encoding.md R74). -/
inductive Instr where
  /-- Clear display, `00E0` (44_display.md R200). -/
  | clear
  /-- Return, `00EE` (41_control_flow.md R130). -/
  | ret
  /-- Jump, `1nnn` (R131). -/
  | jump (nnn : Addr12)
  /-- Call, `2nnn` (R132). -/
  | call (nnn : Addr12)
  /-- Skip-if-equal-const, `3xnn` (R133). -/
  | skipEqConst (x : Nibble) (nn : Byte)
  /-- Skip-if-not-equal-const, `4xnn` (R134). -/
  | skipNeConst (x : Nibble) (nn : Byte)
  /-- Skip-if-equal-reg, `5xy0` (R135). -/
  | skipEqReg (x y : Nibble)
  /-- Set-const, `6xnn` (42_register_arithmetic.md R153). -/
  | setConst (x : Nibble) (nn : Byte)
  /-- Add-const, `7xnn` (R154). -/
  | addConst (x : Nibble) (nn : Byte)
  /-- Copy, `8xy0` (R155). -/
  | copy (x y : Nibble)
  /-- Or, `8xy1` (R156). -/
  | orReg (x y : Nibble)
  /-- And, `8xy2` (R157). -/
  | andReg (x y : Nibble)
  /-- Xor, `8xy3` (R158). -/
  | xorReg (x y : Nibble)
  /-- Add-reg, `8xy4` (R159). -/
  | addReg (x y : Nibble)
  /-- Sub-reg, `8xy5` (R160). -/
  | subReg (x y : Nibble)
  /-- Shift-right, `8xy6` (R161). -/
  | shiftRight (x y : Nibble)
  /-- Sub-reg-reversed, `8xy7` (R162). -/
  | subRegRev (x y : Nibble)
  /-- Shift-left, `8xyE` (R163). -/
  | shiftLeft (x y : Nibble)
  /-- Skip-if-not-equal-reg, `9xy0` (R136). -/
  | skipNeReg (x y : Nibble)
  /-- Set-address, `Annn` (43_address_memory.md R180). -/
  | setAddress (nnn : Addr12)
  /-- Jump-plus, `Bnnn` (R137). -/
  | jumpPlus (nnn : Addr12)
  /-- Random, `Cxnn` (R164). -/
  | random (x : Nibble) (nn : Byte)
  /-- Draw-sprite, `Dxyn` (R201). -/
  | draw (x y n : Nibble)
  /-- Skip-if-key-pressed, `Ex9E` (45_keys_timers.md R220). -/
  | skipKey (x : Nibble)
  /-- Skip-if-key-not-pressed, `ExA1` (R221). -/
  | skipNotKey (x : Nibble)
  /-- Get-delay, `Fx07` (R222). -/
  | getDelay (x : Nibble)
  /-- Get-key, `Fx0A` (R223). -/
  | getKey (x : Nibble)
  /-- Set-delay, `Fx15` (R224). -/
  | setDelay (x : Nibble)
  /-- Set-sound, `Fx18` (R225). -/
  | setSound (x : Nibble)
  /-- Add-address, `Fx1E` (R181). -/
  | addAddress (x : Nibble)
  /-- Get-font-sprite, `Fx29` (R182). -/
  | fontSprite (x : Nibble)
  /-- Store-BCD, `Fx33` (R183). -/
  | storeBcd (x : Nibble)
  /-- Register-dump, `Fx55` (R184). -/
  | regDump (x : Nibble)
  /-- Register-load, `Fx65` (R185). -/
  | regLoad (x : Nibble)
deriving DecidableEq, Repr

end Sys2Proof
end

