-- ==== Sys2Proof/WellFormed.lean ====
section
/-!
DEFINITION. The opcode table of spec/opcode_table.json as data (mask, pattern and operand fields of each row), and the checks
made against it. Operand widths are carried by the types of Syntax, so the check on an instruction's own operands holds
of every term; the checks that can fail are those on a word, on a field's value, and on a word read as an instruction.
-/

namespace Sys2Proof

/-- One row of spec/opcode_table.json: a word belongs to it when its bits under `mask` are `pattern`. -/
structure OpRow where
  pattern : Word
  mask : Word
deriving DecidableEq, Repr

/-- Whether a word has the row's fixed bits (30_encoding.md R74). -/
def OpRow.accepts (r : OpRow) (w : Word) : Bool := (w &&& r.mask) == r.pattern

/-- Families 0 to 7 of the table. -/
def opcodeRowsLow : List OpRow :=
  [⟨0x00E0, 0xFFFF⟩, ⟨0x00EE, 0xFFFF⟩, ⟨0x1000, 0xF000⟩, ⟨0x2000, 0xF000⟩, ⟨0x3000, 0xF000⟩] ++
  [⟨0x4000, 0xF000⟩, ⟨0x5000, 0xF00F⟩, ⟨0x6000, 0xF000⟩, ⟨0x7000, 0xF000⟩]

/-- Family 8 of the table, nine rows (R77). -/
def opcodeRowsAlu : List OpRow :=
  [⟨0x8000, 0xF00F⟩, ⟨0x8001, 0xF00F⟩, ⟨0x8002, 0xF00F⟩, ⟨0x8003, 0xF00F⟩, ⟨0x8004, 0xF00F⟩] ++
  [⟨0x8005, 0xF00F⟩, ⟨0x8006, 0xF00F⟩, ⟨0x8007, 0xF00F⟩, ⟨0x800E, 0xF00F⟩]

/-- Families 9 to D of the table. -/
def opcodeRowsMid : List OpRow :=
  [⟨0x9000, 0xF00F⟩, ⟨0xA000, 0xF000⟩, ⟨0xB000, 0xF000⟩, ⟨0xC000, 0xF000⟩, ⟨0xD000, 0xF000⟩]

/-- Families E and F of the table (R78, R79). -/
def opcodeRowsHigh : List OpRow :=
  [⟨0xE09E, 0xF0FF⟩, ⟨0xE0A1, 0xF0FF⟩, ⟨0xF007, 0xF0FF⟩, ⟨0xF00A, 0xF0FF⟩, ⟨0xF015, 0xF0FF⟩, ⟨0xF018, 0xF0FF⟩] ++
  [⟨0xF01E, 0xF0FF⟩, ⟨0xF029, 0xF0FF⟩, ⟨0xF033, 0xF0FF⟩, ⟨0xF055, 0xF0FF⟩, ⟨0xF065, 0xF0FF⟩]

/-- The 34 rows of spec/opcode_table.json, in its order. -/
def opcodeTable : List OpRow := opcodeRowsLow ++ opcodeRowsAlu ++ opcodeRowsMid ++ opcodeRowsHigh

/-- A word the table gives a row; every other word is illegal (R82). -/
def legalWord (w : Word) : Bool := opcodeTable.any (fun r => r.accepts w)

/-- An operand as the table gives it: its lowest bit, its width and the value it holds. -/
structure Operand where
  lo : Nat
  width : Nat
  value : Nat
deriving DecidableEq, Repr

/-- The operand's value fits its field (R70). -/
def Operand.inField (f : Operand) : Bool := decide (f.value < 2 ^ f.width)

/-- The operand is what the word holds in its field (R70). -/
def Operand.heldBy (f : Operand) (w : Word) : Bool := (w.toNat / 2 ^ f.lo) % 2 ^ f.width == f.value

/-- The row of spec/opcode_table.json an instruction belongs to. -/
def Instr.row : Instr → OpRow
  | .clear => ⟨0x00E0, 0xFFFF⟩
  | .ret => ⟨0x00EE, 0xFFFF⟩
  | .jump _ => ⟨0x1000, 0xF000⟩
  | .call _ => ⟨0x2000, 0xF000⟩
  | .skipEqConst _ _ => ⟨0x3000, 0xF000⟩
  | .skipNeConst _ _ => ⟨0x4000, 0xF000⟩
  | .skipEqReg _ _ => ⟨0x5000, 0xF00F⟩
  | .setConst _ _ => ⟨0x6000, 0xF000⟩
  | .addConst _ _ => ⟨0x7000, 0xF000⟩
  | .copy _ _ => ⟨0x8000, 0xF00F⟩
  | .orReg _ _ => ⟨0x8001, 0xF00F⟩
  | .andReg _ _ => ⟨0x8002, 0xF00F⟩
  | .xorReg _ _ => ⟨0x8003, 0xF00F⟩
  | .addReg _ _ => ⟨0x8004, 0xF00F⟩
  | .subReg _ _ => ⟨0x8005, 0xF00F⟩
  | .shiftRight _ _ => ⟨0x8006, 0xF00F⟩
  | .subRegRev _ _ => ⟨0x8007, 0xF00F⟩
  | .shiftLeft _ _ => ⟨0x800E, 0xF00F⟩
  | .skipNeReg _ _ => ⟨0x9000, 0xF00F⟩
  | .setAddress _ => ⟨0xA000, 0xF000⟩
  | .jumpPlus _ => ⟨0xB000, 0xF000⟩
  | .random _ _ => ⟨0xC000, 0xF000⟩
  | .draw _ _ _ => ⟨0xD000, 0xF000⟩
  | .skipKey _ => ⟨0xE09E, 0xF0FF⟩
  | .skipNotKey _ => ⟨0xE0A1, 0xF0FF⟩
  | .getDelay _ => ⟨0xF007, 0xF0FF⟩
  | .getKey _ => ⟨0xF00A, 0xF0FF⟩
  | .setDelay _ => ⟨0xF015, 0xF0FF⟩
  | .setSound _ => ⟨0xF018, 0xF0FF⟩
  | .addAddress _ => ⟨0xF01E, 0xF0FF⟩
  | .fontSprite _ => ⟨0xF029, 0xF0FF⟩
  | .storeBcd _ => ⟨0xF033, 0xF0FF⟩
  | .regDump _ => ⟨0xF055, 0xF0FF⟩
  | .regLoad _ => ⟨0xF065, 0xF0FF⟩

/-- The operand fields the table gives an instruction. -/
def Instr.operands : Instr → List Operand
  | .clear => []
  | .ret => []
  | .jump nnn => [⟨0, 12, nnn.toNat⟩]
  | .call nnn => [⟨0, 12, nnn.toNat⟩]
  | .skipEqConst x nn => [⟨8, 4, x.toNat⟩, ⟨0, 8, nn.toNat⟩]
  | .skipNeConst x nn => [⟨8, 4, x.toNat⟩, ⟨0, 8, nn.toNat⟩]
  | .skipEqReg x y => [⟨8, 4, x.toNat⟩, ⟨4, 4, y.toNat⟩]
  | .setConst x nn => [⟨8, 4, x.toNat⟩, ⟨0, 8, nn.toNat⟩]
  | .addConst x nn => [⟨8, 4, x.toNat⟩, ⟨0, 8, nn.toNat⟩]
  | .copy x y => [⟨8, 4, x.toNat⟩, ⟨4, 4, y.toNat⟩]
  | .orReg x y => [⟨8, 4, x.toNat⟩, ⟨4, 4, y.toNat⟩]
  | .andReg x y => [⟨8, 4, x.toNat⟩, ⟨4, 4, y.toNat⟩]
  | .xorReg x y => [⟨8, 4, x.toNat⟩, ⟨4, 4, y.toNat⟩]
  | .addReg x y => [⟨8, 4, x.toNat⟩, ⟨4, 4, y.toNat⟩]
  | .subReg x y => [⟨8, 4, x.toNat⟩, ⟨4, 4, y.toNat⟩]
  | .shiftRight x y => [⟨8, 4, x.toNat⟩, ⟨4, 4, y.toNat⟩]
  | .subRegRev x y => [⟨8, 4, x.toNat⟩, ⟨4, 4, y.toNat⟩]
  | .shiftLeft x y => [⟨8, 4, x.toNat⟩, ⟨4, 4, y.toNat⟩]
  | .skipNeReg x y => [⟨8, 4, x.toNat⟩, ⟨4, 4, y.toNat⟩]
  | .setAddress nnn => [⟨0, 12, nnn.toNat⟩]
  | .jumpPlus nnn => [⟨0, 12, nnn.toNat⟩]
  | .random x nn => [⟨8, 4, x.toNat⟩, ⟨0, 8, nn.toNat⟩]
  | .draw x y n => [⟨8, 4, x.toNat⟩, ⟨4, 4, y.toNat⟩, ⟨0, 4, n.toNat⟩]
  | .skipKey x => [⟨8, 4, x.toNat⟩]
  | .skipNotKey x => [⟨8, 4, x.toNat⟩]
  | .getDelay x => [⟨8, 4, x.toNat⟩]
  | .getKey x => [⟨8, 4, x.toNat⟩]
  | .setDelay x => [⟨8, 4, x.toNat⟩]
  | .setSound x => [⟨8, 4, x.toNat⟩]
  | .addAddress x => [⟨8, 4, x.toNat⟩]
  | .fontSprite x => [⟨8, 4, x.toNat⟩]
  | .storeBcd x => [⟨8, 4, x.toNat⟩]
  | .regDump x => [⟨8, 4, x.toNat⟩]
  | .regLoad x => [⟨8, 4, x.toNat⟩]

/-- Every operand fits its field. The types of Syntax carry this, so it holds of every instruction. -/
def Instr.wellFormed (i : Instr) : Bool := i.operands.all Operand.inField

/-- The word is this instruction by the table: the row's fixed bits, and each operand in its field. -/
def Instr.reads (i : Instr) (w : Word) : Bool := i.row.accepts w && i.operands.all (fun f => f.heldBy w)

end Sys2Proof
end

