-- ==== Sys2Proof/Decode.lean ====
section
/-!
DEFINITION. The decoder of spec/30_encoding.md (R70, R71, R80), total on words and on bytes and rejecting by name; the encoder,
written from the formats of R72 and the map of R74; and the host's view of a table word. PRESUMED (log 17): apart from
00E0, 1nnn and 8xy4 the spec gives these bit patterns from general knowledge (K4 to K6).
-/

namespace Sys2Proof

/-- Why bytes are no instruction. -/
inductive DecodeError where
  /-- The word matches no pattern (R80, R82). Raised by `decode`; the machine takes the fatal error of that name (R241). Safe:
  the spec names the same failure. -/
  | decodeFailure
  /-- Fewer than the two bytes of an instruction (R70). Raised by `decodeBytes` only; the machine's fetch reads both bytes from
  memory and never meets it. Safe: nothing runs. -/
  | truncated
deriving DecidableEq, Repr

/-- `op`, w[15:12] (R70). -/
def opField (w : Word) : Nibble := w.extractLsb' 12 4
/-- `x`, w[11:8] (R70). -/
def xField (w : Word) : Nibble := w.extractLsb' 8 4
/-- `y`, w[7:4] (R70). -/
def yField (w : Word) : Nibble := w.extractLsb' 4 4
/-- `n`, w[3:0] (R70). -/
def nField (w : Word) : Nibble := w.extractLsb' 0 4
/-- `nn`, w[7:0] (R70). -/
def nnField (w : Word) : Byte := w.extractLsb' 0 8
/-- `nnn`, w[11:0] (R70). -/
def nnnField (w : Word) : Addr12 := w.extractLsb' 0 12

/-- Family 0: exactly 00E0 and 00EE (R75, D21). -/
def decodeFamily0 (w : Word) : Except DecodeError Instr :=
  if w = 0x00E0 then .ok .clear
  else if w = 0x00EE then .ok .ret
  else .error .decodeFailure

/-- Family 8: nine sub-opcodes in `n` (R77, C1). -/
def decodeFamily8 (x y n : Nibble) : Except DecodeError Instr :=
  match n.toNat with
  | 0x0 => .ok (.copy x y)
  | 0x1 => .ok (.orReg x y)
  | 0x2 => .ok (.andReg x y)
  | 0x3 => .ok (.xorReg x y)
  | 0x4 => .ok (.addReg x y)
  | 0x5 => .ok (.subReg x y)
  | 0x6 => .ok (.shiftRight x y)
  | 0x7 => .ok (.subRegRev x y)
  | 0xE => .ok (.shiftLeft x y)
  | _ => .error .decodeFailure

/-- Family E: two low bytes (R78). -/
def decodeFamilyE (x : Nibble) (nn : Byte) : Except DecodeError Instr :=
  match nn.toNat with
  | 0x9E => .ok (.skipKey x)
  | 0xA1 => .ok (.skipNotKey x)
  | _ => .error .decodeFailure

/-- Family F: nine low bytes (R79). -/
def decodeFamilyF (x : Nibble) (nn : Byte) : Except DecodeError Instr :=
  match nn.toNat with
  | 0x07 => .ok (.getDelay x)
  | 0x0A => .ok (.getKey x)
  | 0x15 => .ok (.setDelay x)
  | 0x18 => .ok (.setSound x)
  | 0x1E => .ok (.addAddress x)
  | 0x29 => .ok (.fontSprite x)
  | 0x33 => .ok (.storeBcd x)
  | 0x55 => .ok (.regDump x)
  | 0x65 => .ok (.regLoad x)
  | _ => .error .decodeFailure

/-- `Decode(w)` of R80: total, and reading nothing but the word. -/
def decode (w : Word) : Except DecodeError Instr :=
  match (opField w).toNat with
  | 0x0 => decodeFamily0 w
  | 0x1 => .ok (.jump (nnnField w))
  | 0x2 => .ok (.call (nnnField w))
  | 0x3 => .ok (.skipEqConst (xField w) (nnField w))
  | 0x4 => .ok (.skipNeConst (xField w) (nnField w))
  | 0x5 => if nField w = 0 then .ok (.skipEqReg (xField w) (yField w)) else .error .decodeFailure
  | 0x6 => .ok (.setConst (xField w) (nnField w))
  | 0x7 => .ok (.addConst (xField w) (nnField w))
  | 0x8 => decodeFamily8 (xField w) (yField w) (nField w)
  | 0x9 => if nField w = 0 then .ok (.skipNeReg (xField w) (yField w)) else .error .decodeFailure
  | 0xA => .ok (.setAddress (nnnField w))
  | 0xB => .ok (.jumpPlus (nnnField w))
  | 0xC => .ok (.random (xField w) (nnField w))
  | 0xD => .ok (.draw (xField w) (yField w) (nField w))
  | 0xE => decodeFamilyE (xField w) (nnField w)
  | 0xF => decodeFamilyF (xField w) (nnField w)
  | _ => .error .decodeFailure

/-- The word of two bytes, the first byte high (20_memory.md R56: `hi ++ lo`). -/
def wordOfBytes (hi lo : Byte) : Word := hi ++ lo

/-- An instruction from a byte stream, with the bytes after it; an instruction is always 2 bytes (R70, R71). -/
def decodeBytes : List Byte → Except DecodeError (Instr × List Byte)
  | hi :: lo :: rest =>
    match decode (wordOfBytes hi lo) with
    | .ok i => .ok (i, rest)
    | .error e => .error e
  | _ => .error .truncated

/-- Format FA, `oooo nnnn nnnn nnnn` (R72). -/
def wordFA (op : Nibble) (nnn : Addr12) : Word := op ++ nnn
/-- Format FXN, `oooo xxxx nnnn nnnn` (R72); format FX with the function in the low byte has the same layout. -/
def wordFXN (op x : Nibble) (nn : Byte) : Word := op ++ x ++ nn
/-- Formats FXY and FXYN, `oooo xxxx yyyy nnnn` (R72). -/
def wordFXY (op x y n : Nibble) : Word := op ++ x ++ y ++ n

/-- The instruction's word, from the map of R74 in the formats of R72. -/
def encode : Instr → Word
  | .clear => 0x00E0
  | .ret => 0x00EE
  | .jump nnn => wordFA 0x1 nnn
  | .call nnn => wordFA 0x2 nnn
  | .skipEqConst x nn => wordFXN 0x3 x nn
  | .skipNeConst x nn => wordFXN 0x4 x nn
  | .skipEqReg x y => wordFXY 0x5 x y 0x0
  | .setConst x nn => wordFXN 0x6 x nn
  | .addConst x nn => wordFXN 0x7 x nn
  | .copy x y => wordFXY 0x8 x y 0x0
  | .orReg x y => wordFXY 0x8 x y 0x1
  | .andReg x y => wordFXY 0x8 x y 0x2
  | .xorReg x y => wordFXY 0x8 x y 0x3
  | .addReg x y => wordFXY 0x8 x y 0x4
  | .subReg x y => wordFXY 0x8 x y 0x5
  | .shiftRight x y => wordFXY 0x8 x y 0x6
  | .subRegRev x y => wordFXY 0x8 x y 0x7
  | .shiftLeft x y => wordFXY 0x8 x y 0xE
  | .skipNeReg x y => wordFXY 0x9 x y 0x0
  | .setAddress nnn => wordFA 0xA nnn
  | .jumpPlus nnn => wordFA 0xB nnn
  | .random x nn => wordFXN 0xC x nn
  | .draw x y n => wordFXY 0xD x y n
  | .skipKey x => wordFXN 0xE x 0x9E
  | .skipNotKey x => wordFXN 0xE x 0xA1
  | .getDelay x => wordFXN 0xF x 0x07
  | .getKey x => wordFXN 0xF x 0x0A
  | .setDelay x => wordFXN 0xF x 0x15
  | .setSound x => wordFXN 0xF x 0x18
  | .addAddress x => wordFXN 0xF x 0x1E
  | .fontSprite x => wordFXN 0xF x 0x29
  | .storeBcd x => wordFXN 0xF x 0x33
  | .regDump x => wordFXN 0xF x 0x55
  | .regLoad x => wordFXN 0xF x 0x65

/-- The high byte of a word, stored first (R71). -/
def highByte (w : Word) : Byte := w.extractLsb' 8 8
/-- The low byte of a word, stored second (R71). -/
def lowByte (w : Word) : Byte := w.extractLsb' 0 8

/-- The instruction's two bytes as memory holds them, high byte first (R71). -/
def encodeBytes (i : Instr) : List Byte := [highByte (encode i), lowByte (encode i)]

/-- The one word of an instruction whose table bits are `w`; bits from `nbits` up are zero. -/
def tableWord (nbits w : Nat) : Word := BitVec.ofNat 16 (w % 2 ^ nbits)

/-- The instruction the decoder reads from the bytes of a table word, laid out as memory holds them. -/
def decodeTableWord (nbits w : Nat) : Option Instr :=
  match decodeBytes [highByte (tableWord nbits w), lowByte (tableWord nbits w)] with
  | .ok (i, _) => some i
  | .error _ => none

end Sys2Proof
end

