-- ==== Sys2Proof/Config.lean ====
section
/-!
DEFINITION. What an implementation fixes and what the spec leaves free (spec/00_scope.md R7, R8): the sizes, the
parameters `FONT`, `ODD_PC_POLICY`, `WRAP_POLICY` and `RESET_I` with the spec's defaults, and the free byte `RAND`.
-/

namespace Sys2Proof.Config

/-- `MEM_SIZE`: bytes of memory, addresses 0x000 to 0xFFF (R7). -/
def memSize : Nat := 4096

/-- `PROG_BASE`: the load address and the reset pc (R7). -/
def progBase : Nat := 0x200

/-- `MAX_IMAGE`: the longest program image in bytes (R7, R111). -/
def maxImage : Nat := 3584

/-- `ODD_PC_POLICY`: what a fetch at an odd pc does (20_memory.md R58). -/
inductive OddPcPolicy where
  /-- The default: the word is fetched like at any other address. -/
  | fetch
  /-- The fetch raises MemoryOutOfRange before it reads. -/
  | fault
deriving DecidableEq, Repr

/-- `WRAP_POLICY`: where a sprite pixel past an edge lands (44_display.md R202). -/
inductive WrapPolicy where
  /-- The default: column modulo 64, row modulo 32. -/
  | perAxis
  /-- The flat index modulo 2048. -/
  | flatIndex
deriving DecidableEq, Repr

/-- The two behavioural parameters of R8, fixed for one machine. DESIGN CHOICE (log 3): they are carried in State, so
that a statement about every state covers every choice of them; nothing changes them. -/
structure Policies where
  oddPc : OddPcPolicy
  wrap : WrapPolicy
deriving DecidableEq, Repr

/-- The defaults of R8: `fetch` (D1) and `per_axis` (D7). -/
def defaultPolicies : Policies := { oddPc := .fetch, wrap := .perAxis }

/-- The default `FONT` of 20_memory.md R53, glyphs 0 to 7. PRESUMED (log 4): the spec gives these bytes from general
knowledge (K3, D20). -/
def fontLow : List Byte :=
  [0xF0, 0x90, 0x90, 0x90, 0xF0] ++
  [0x20, 0x60, 0x20, 0x20, 0x70] ++
  [0xF0, 0x10, 0xF0, 0x80, 0xF0] ++
  [0xF0, 0x10, 0xF0, 0x10, 0xF0] ++
  [0x90, 0x90, 0xF0, 0x10, 0x10] ++
  [0xF0, 0x80, 0xF0, 0x10, 0xF0] ++
  [0xF0, 0x80, 0xF0, 0x90, 0xF0] ++
  [0xF0, 0x10, 0x20, 0x40, 0x40]

/-- The default `FONT` of R53, glyphs 8 to F. PRESUMED (log 4). -/
def fontHigh : List Byte :=
  [0xF0, 0x90, 0xF0, 0x90, 0xF0] ++
  [0xF0, 0x90, 0xF0, 0x10, 0xF0] ++
  [0xF0, 0x90, 0xF0, 0x90, 0x90] ++
  [0xE0, 0x90, 0xE0, 0x90, 0xE0] ++
  [0xF0, 0x80, 0x80, 0x80, 0xF0] ++
  [0xE0, 0x90, 0x90, 0x90, 0xE0] ++
  [0xF0, 0x80, 0xF0, 0x80, 0xF0] ++
  [0xF0, 0x80, 0xF0, 0x80, 0x80]

/-- The 80 bytes of the default `FONT` (R53). -/
def fontBytes : List Byte := fontLow ++ fontHigh

/-- The default `FONT` as the 80-byte table of R7. -/
def defaultFont : Vector Byte 80 := ⟨fontBytes.toArray, rfl⟩

/-- Everything a machine is constructed from (R8, R270): the arguments of construction. -/
structure Params where
  font : Vector Byte 80
  resetI : Word
  policies : Policies
deriving DecidableEq, Repr

/-- The defaults of R8. `RESET_I` is 0x0000: DESIGN CHOICE (log 5), the spec's own (D5). -/
def defaultParams : Params :=
  { font := defaultFont, resetI := 0, policies := defaultPolicies }

/-- `RAND`, R11's `Draw8()`: the byte the k-th draw of a run gives. A FREE VALUE (log 7, D23, U6): no body, so nothing
is known of it, and a statement holds whatever the bytes are. -/
opaque draw8 : Nat → Byte

end Sys2Proof.Config
end

