-- ==== Sys2Proof/Machine/State.lean ====
section
/-!
DEFINITION. The state of the CORE as plain data (spec/10_state.md R20), the error record of a fatal error
(60_exceptions.md R240), the reasons a step can stop, and the state right after construction (R39).
-/

namespace Sys2Proof.Machine

/-- The kinds of error (60_exceptions.md R240). -/
inductive ErrorKind where
  /-- The word matches no pattern; raised by the decode phase (R241). -/
  | decodeFailure
  /-- A Call with 16 entries in use (R242). -/
  | stackOverflow
  /-- A Return with no entry in use (R243). -/
  | stackUnderflow
  /-- An access outside [0, 4096) (R244). -/
  | memoryOutOfRange
  /-- A key skip with V[x] above 15 (R245). -/
  | keyIndexOutOfRange
  /-- `load` of more than 3584 bytes; returned to the host, never fatal (R246). -/
  | imageTooLarge
deriving DecidableEq, Repr

/-- The error record of R240. Its `code` is the kind's number and is computed from the kind (log 14). -/
structure ErrorRecord where
  kind : ErrorKind
  addr : Word
  word : Option Word
  detail : Option Nat
deriving DecidableEq, Repr

/-- The engine's life cycle (R35). -/
inductive Status where
  /-- Constructed and not yet stepped; the host may `load`. -/
  | ready
  /-- At least one step taken and no fatal error. -/
  | running
  /-- A step raised a fatal error; the record stays for good. -/
  | faulted (err : ErrorRecord)
deriving DecidableEq, Repr

/-- Memory as listed bytes: addresses strictly rising, no entry equal to what an unlisted address reads as (log 23). -/
abbrev Memory := List Host.Cell

/-- The framebuffer, 32 rows of 64 cells, row-major (R29): `d[row][col]`, `true` is on. -/
abbrev Display := Vector (Vector Bool 64) 32

/-- The machine state of R20, with two fields of the model's own at the end. -/
structure State where
  /-- `Mem`, 4096 bytes (R50). -/
  mem : Memory
  /-- `V[0..15]` (R21); `VF` is the flag register (R22). -/
  v : Vector Byte 16
  /-- `pc`, the address of the next instruction to fetch (R24). -/
  pc : Word
  /-- `I`, the memory-address register (R26). -/
  I : Word
  /-- `Stack[0..15]` (R27). -/
  stack : Vector Word 16
  /-- `SP`, the number of entries in use (R27). -/
  sp : Fin 17
  /-- `DT`, the delay timer (R28). -/
  dt : Byte
  /-- `ST`, the sound timer (R28). -/
  st : Byte
  /-- `Key[0..15]`, the latches (R31). -/
  keys : Vector Bool 16
  /-- `Disp` (R29). -/
  disp : Display
  /-- `Redraw` (R32). -/
  redraw : Bool
  /-- `Tone` (R33). -/
  tone : Bool
  /-- `Waiting` (R34). -/
  waiting : Bool
  /-- `WaitReg`, meaningful only while `Waiting` (R34). -/
  waitReg : Nibble
  /-- `Status` (R35). -/
  status : Status
  /-- The model's own: the policies this machine was constructed with (R8, log 3). -/
  policies : Config.Policies
  /-- The model's own: how many bytes of `RAND` have been drawn (log 7). -/
  draws : Nat
deriving DecidableEq, Repr

/-- Why a step is not taken. -/
inductive Fault where
  /-- Raised by `step` while `Waiting`: no step is enabled until `deliver_key` (R101, D14, log 2). UNSAFE, as the spec says of D14: a
  driver that breaks its duty and steps would run past Get-key, and the model has no such run. -/
  | stepWhileWaiting
  /-- Raised by `step` from a `Faulted` state: a fatal error is for good (R101, R249, D15, log 2). Safe: the spec has no step there. -/
  | stepAfterFatalError (err : ErrorRecord)
deriving DecidableEq, Repr

/-- Why an instruction has no meaning. -/
inductive Refusal where
  /-- Raised by an arm of `exec` whose instruction is not modelled yet. Safe: nothing is claimed of it. No arm raises it now. -/
  | notModelled (mnemonic : String)
deriving DecidableEq, Repr

/-- The state after construction with the default parameters (R39, R270). Memory lists nothing: an unlisted address reads as
construction leaves it. DESIGN CHOICE for `I` (log 5), `Disp`, `Key`, the flags, `WaitReg` and `Status` (log 6), `policies` (log 3)
and `draws` (log 7). -/
def State.reset : State where
  mem := []
  v := Vector.replicate 16 0
  pc := 0x200
  I := 0
  stack := Vector.replicate 16 0
  sp := 0
  dt := 0
  st := 0
  keys := Vector.replicate 16 false
  disp := Vector.replicate 32 (Vector.replicate 64 false)
  redraw := false
  tone := false
  waiting := false
  waitReg := 0
  status := .ready
  policies := Config.defaultPolicies
  draws := 0

end Sys2Proof.Machine
end

