-- ==== Sys2Proof/Machine/Operands.lean ====
section
/-!
DEFINITION. Operand forms (spec/30_encoding.md R73, 10_state.md R21, R26): reading and writing `V[x]`, the register file as a
run `V[0..x]`, zero extension, the exact address in `I`, a display cell and a key latch.
-/

namespace Sys2Proof.Machine

/-- `VF`, register 0xF (R11, R22). -/
def vf : Nibble := 0xF

/-- `V[x]` (R11). No register is hardwired (R21). -/
def State.reg (s : State) (x : Nibble) : Byte := s.v[x.toNat]'x.isLt

/-- `V[x] <- b` (R11). -/
def State.setReg (s : State) (x : Nibble) (b : Byte) : State :=
  { s with v := s.v.set x.toNat b x.isLt }

/-- `zext_16` of an 8-bit value (R10). -/
def zextByte (b : Byte) : Word := b.setWidth 16

/-- `zext_16(nnn)` (R73). -/
def zextAddr (nnn : Addr12) : Word := nnn.setWidth 16

/-- The exact address in `I`, to which an access adds its offset without wrapping (R55, D26). -/
def State.base (s : State) : Nat := s.I.toNat

/-- `V[0..x]` in order, x + 1 bytes (R184). -/
def State.regsUpTo (s : State) (x : Nibble) : List Byte :=
  (List.range (x.toNat + 1)).map (fun k => s.reg (BitVec.ofNat 4 k))

/-- `V[k], V[k+1], ... <- bytes`, in ascending order (R185). -/
def State.setRegsFrom (s : State) (k : Nat) : List Byte → State
  | [] => s
  | b :: bs => (s.setReg (BitVec.ofNat 4 k) b).setRegsFrom (k + 1) bs

/-- `I <- v` (R11). -/
def State.setI (s : State) (v : Word) : State := { s with I := v }

/-- `pc <- target` (R11). -/
def State.setPc (s : State) (target : Word) : State := { s with pc := target }

/-- `Disp[col, row]` (R29). -/
def Display.get (d : Display) (col : Fin 64) (row : Fin 32) : Bool := d[row][col]

/-- `Disp[col, row] <- b`. -/
def Display.put (d : Display) (col : Fin 64) (row : Fin 32) (b : Bool) : Display := d.set row (d[row].set col b)

/-- The display with every cell off (R200). -/
def Display.blank : Display := Vector.replicate 32 (Vector.replicate 64 false)

/-- `Disp[col, row]` of a state. -/
def State.pixel (s : State) (col : Fin 64) (row : Fin 32) : Bool := Display.get s.disp col row

/-- `Key[k]` (R31). -/
def State.key (s : State) (k : Fin 16) : Bool := s.keys[k]

/-- `Key[k] <- false`, what a key test does to its latch (R31, R220). -/
def State.clearKey (s : State) (k : Fin 16) : State := { s with keys := s.keys.set k false }

/-- The key a register names: none above 15 (R226, D11). -/
def keyIndex (b : Byte) : Option (Fin 16) := if h : b.toNat < 16 then some ⟨b.toNat, h⟩ else none

end Sys2Proof.Machine
end

