-- ==== Sys2Proof/Machine/Ops.lean ====
section
/-!
DEFINITION. The named operations over memory, the return stack and the step's phases: `MemRead` and `MemWrite`
(spec/20_memory.md R55), the block range check (R60, 43_address_memory.md R186), `Push` and `Pop` (10_state.md R27), taking a
fatal error (60_exceptions.md R240, 40_cycle.md R107), fetch (R56, R58), skip (00_scope.md R15) and the timer tick (R255, R256).
There is no return from an error (R249).
-/

namespace Sys2Proof.Machine

/-- What an instruction or a step answers. -/
abbrev Result := Host.Outcome State Fault Refusal

/-! ### Memory -/

/-- What an unlisted address reads as: what construction with the default font leaves there (R39, R51). PRESUMED font
bytes (log 4). -/
def Memory.resetByte (a : Nat) : Byte := Config.fontBytes.getD a 0

/-- The byte at an address. -/
def Memory.read : Memory → Nat → Byte
  | [], a => Memory.resetByte a
  | (k, b) :: m, a => if k = a then b else Memory.read m a

/-- List a byte at its place, replacing the entry of that address. -/
def Memory.insert : Memory → Nat → Byte → Memory
  | [], a, b => [(a, b)]
  | (k, c) :: m, a, b =>
    if a < k then (a, b) :: (k, c) :: m
    else if k = a then (a, b) :: m
    else (k, c) :: Memory.insert m a b

/-- List nothing at an address. -/
def Memory.erase (m : Memory) (a : Nat) : Memory := m.filter (fun c => c.1 != a)

/-- Store a byte, keeping the canonical form: the value an unlisted address reads as is not listed. -/
def Memory.write (m : Memory) (a : Nat) (b : Byte) : Memory :=
  if b = Memory.resetByte a then Memory.erase m a else Memory.insert m a b

/-- The canonical form: addresses strictly rising, all in the 4096 bytes of R50, no entry an unlisted address would give. -/
abbrev Memory.wf (m : Memory) : Prop :=
  List.Pairwise (fun c d : Host.Cell => c.1 < d.1) m ∧
    ∀ c ∈ m, c.1 < Config.memSize ∧ c.2 ≠ Memory.resetByte c.1

/-- The bytes at `a`, `a+1`, ... (R57: ascending single-byte reads). -/
def Memory.readBlock (m : Memory) (a n : Nat) : List Byte := (List.range n).map (fun k => Memory.read m (a + k))

/-- Store bytes at `a`, `a+1`, ... (R57: ascending single-byte writes). -/
def Memory.writeBlock (m : Memory) (a : Nat) : List Byte → Memory
  | [] => m
  | b :: bs => Memory.writeBlock (Memory.write m a b) (a + 1) bs

/-- `MemRead(addr, 1)` of R55: the byte, or the address that is out of range. -/
def State.memRead (s : State) (addr : Nat) : Except Nat Byte :=
  if Config.memSize ≤ addr then .error addr else .ok (Memory.read s.mem addr)

/-- The check of R60 over `start`, ..., `start + count - 1`: the first address that is 4096 or more, if there is one (R186, R201).
The value is the spec's own (D17, log 12). -/
def outOfRange (start count : Nat) : Option Nat :=
  if 0 < count ∧ Config.memSize ≤ start + count - 1 then some (max start Config.memSize) else none

/-! ### Fatal errors -/

/-- `Faulted(...)` (R35). -/
def Status.isFaulted : Status → Bool
  | .ready => false
  | .running => false
  | .faulted _ => true

/-- The record's `code` (R240). -/
def ErrorKind.code : ErrorKind → Byte
  | .decodeFailure => 1
  | .stackOverflow => 2
  | .stackUnderflow => 3
  | .memoryOutOfRange => 4
  | .keyIndexOutOfRange => 5
  | .imageTooLarge => 6

/-- Taking a fatal error: `Status` becomes `Faulted(record)` and nothing else changes (R107, R248). `Redraw` was cleared and `pc` set
by the cycle before. DESIGN CHOICE (log 1): the state after the error is a next state. -/
def State.raise (s : State) (kind : ErrorKind) (addr : Word) (word : Option Word) (detail : Option Nat) : State :=
  { s with status := .faulted { kind := kind, addr := addr, word := word, detail := detail } }

/-- The fetch address of the executing instruction: the post-fetch pc less 2 (R15, R102, log 13). -/
def State.fetchAddr (s : State) : Word := s.pc - 2

/-- `raise E(info)` in the execute phase (R11): `addr` is the instruction's own address and `word` its word (R240, log 13). -/
def State.raiseIn (s : State) (i : Instr) (kind : ErrorKind) (detail : Option Nat) : Result :=
  .next (s.raise kind s.fetchAddr (some (encode i)) detail)

/-! ### The return stack -/

/-- `Push(v)` of R27; `none` when all 16 entries are in use. -/
def State.push (s : State) (v : Word) : Option State :=
  if h : s.sp.val < 16 then
    some { s with stack := s.stack.set s.sp.val v h, sp := ⟨s.sp.val + 1, by omega⟩ }
  else none

/-- `Pop()` of R27, with the state after it; `none` when no entry is in use. The popped entry keeps its value. -/
def State.pop (s : State) : Option (Word × State) :=
  if h : 0 < s.sp.val then
    some (s.stack[s.sp.val - 1]'(by omega), { s with sp := ⟨s.sp.val - 1, by omega⟩ })
  else none

/-! ### The phases of a step -/

/-- The skip of R15: 2 more on the post-fetch pc. -/
def State.skipIf (s : State) (taken : Bool) : State := if taken then s.setPc (s.pc + 2) else s

/-- Fetch at `pc` (R56, R58): the word, or the address the MemoryOutOfRange error reports (R244). -/
def State.fetch (s : State) : Except Nat Word :=
  if s.policies.oddPc = .fault ∧ s.pc.toNat % 2 = 1 then .error s.pc.toNat
  else
    match s.memRead s.pc.toNat with
    | .error d => .error d
    | .ok hi =>
      match s.memRead (s.pc.toNat + 1) with
      | .error d => .error d
      | .ok lo => .ok (wordOfBytes hi lo)

/-- What a step does first: `Status` is `Running`, `Redraw` is cleared (R100). -/
def State.beginStep (s : State) : State := { s with status := .running, redraw := false }

/-- The unconditional advance of R100. -/
def State.advance (s : State) : State := s.setPc (s.pc + 2)

/-- `TimerTick()` part 1 (R255). -/
def State.tickDelay (s : State) : State := if s.dt = 0 then s else { s with dt := s.dt - 1 }

/-- `TimerTick()` part 2 (R256, D22, log 22). -/
def State.tickSound (s : State) : State :=
  if s.st = 0 then { s with tone := false }
  else { s with st := s.st - 1, tone := decide (s.st - 1 = 0) }

/-- `TimerTick()`: part 1, then part 2 (R256). -/
def State.timerTick (s : State) : State := s.tickDelay.tickSound

/-- The end of a step: the timers tick only if the execute phase raised nothing (R105, R107). -/
def finishStep : Result → Result
  | .next s => .next (if s.status.isFaulted then s else s.timerTick)
  | .fault f => .fault f
  | .refused r => .refused r

/-- A word stored at `pc`, high byte first, where the fetch reads it; nothing where the fetch could not (log 23). -/
def State.placeWord (s : State) (w : Word) : State :=
  if s.pc.toNat + 1 < Config.memSize then
    { s with mem := Memory.writeBlock s.mem s.pc.toNat [highByte w, lowByte w] }
  else s

end Sys2Proof.Machine
end

