-- ==== Sys2Proof/Machine/AddressMemory.lean ====
section
/-!
DEFINITION. The address register and memory transfers (spec/43_address_memory.md). Every address of a transfer is checked before anything
is read or written (20_memory.md R60).
-/

namespace Sys2Proof.Machine

/-- Set-address (R180). -/
def execSetAddress (nnn : Addr12) (s : State) : Result := .next (s.setI (zextAddr nnn))

/-- Add-address (R181): modulo 65536 (D4, log 9), no flag, no range check. -/
def execAddAddress (x : Nibble) (s : State) : Result := .next (s.setI (s.I + zextByte (s.reg x)))

/-- Get-font-sprite (R182): five times the register, not masked. -/
def execFontSprite (x : Nibble) (s : State) : Result := .next (s.setI (5 * zextByte (s.reg x)))

/-- The three decimal digits of a byte: hundreds, tens, units (R183). -/
def bcdDigits (v : Byte) : List Byte := [v / 100, (v / 10) % 10, v % 10]

/-- Store-BCD (R183). `I` is not changed. -/
def execStoreBcd (x : Nibble) (s : State) : Result :=
  match outOfRange s.base 3 with
  | some d => s.raiseIn (.storeBcd x) .memoryOutOfRange (some d)
  | none => .next { s with mem := Memory.writeBlock s.mem s.base (bcdDigits (s.reg x)) }

/-- `I <- (I + x + 1) mod 65536`, what a dump or a load does last (R184, R185, D4). -/
def State.advanceI (s : State) (x : Nibble) : State := s.setI (s.I + x.setWidth 16 + 1)

/-- Register-dump (R184). -/
def execRegDump (x : Nibble) (s : State) : Result :=
  match outOfRange s.base (x.toNat + 1) with
  | some d => s.raiseIn (.regDump x) .memoryOutOfRange (some d)
  | none => .next ({ s with mem := Memory.writeBlock s.mem s.base (s.regsUpTo x) }.advanceI x)

/-- Register-load (R185, C5). -/
def execRegLoad (x : Nibble) (s : State) : Result :=
  match outOfRange s.base (x.toNat + 1) with
  | some d => s.raiseIn (.regLoad x) .memoryOutOfRange (some d)
  | none => .next ((s.setRegsFrom 0 (Memory.readBlock s.mem s.base (x.toNat + 1))).advanceI x)

end Sys2Proof.Machine
end

