-- ==== Sys2Proof/Machine/Flags.lean ====
section
/-!
DEFINITION. What an instruction writes to `VF` as a side effect (spec/10_state.md R22): carry, not-borrow, the bit shifted out,
and the collision flag of Draw-sprite.
-/

namespace Sys2Proof.Machine

/-- A flag as a register value: 1 or 0. -/
def flagByte (b : Bool) : Byte := if b then 1 else 0

/-- Carry of Add-reg: 1 when the exact sum is above 255 (42_register_arithmetic.md R159). -/
def carryFlag (a b : Byte) : Byte := flagByte (decide (255 < a.toNat + b.toNat))

/-- Not-borrow of `a - b`: 0 when a < b, else 1 (R160, R162). -/
def notBorrowFlag (a b : Byte) : Byte := flagByte (!decide (a.toNat < b.toNat))

/-- Shift-right's flag: the low bit before the shift (R161). -/
def shiftedOutLow (v : Byte) : Byte := v &&& 1

/-- Shift-left's flag: the high bit before the shift, left in place, 0x80 or 0x00 (R163). -/
def shiftedOutHigh (v : Byte) : Byte := v &&& 0x80

/-- Draw-sprite's flag: 1 on collision, else 0 (44_display.md R204). -/
def collisionFlag (collided : Bool) : Byte := flagByte collided

end Sys2Proof.Machine
end

