-- ==== Sys2Proof/Machine/Arithmetic.lean ====
section
/-!
DEFINITION. Register arithmetic (spec/42_register_arithmetic.md). Operands are read before anything is written (R151) and the writes
happen in the order of R152, which matters only where a destination is `VF` (the spec's own reading, D10, log 10).
-/

namespace Sys2Proof.Machine

/-- `V[x] <- result`, then `VF <- flag` (R152: Add-reg, Sub-reg, Sub-reg-reversed). -/
def State.setResultThenFlag (s : State) (x : Nibble) (result flag : Byte) : State :=
  (s.setReg x result).setReg vf flag

/-- `VF <- flag`, then `V[y]` and `V[x] <- result` (R152: the shifts). -/
def State.setFlagThenBoth (s : State) (x y : Nibble) (flag result : Byte) : State :=
  ((s.setReg vf flag).setReg y result).setReg x result

/-- Set-const (R153). -/
def execSetConst (x : Nibble) (nn : Byte) (s : State) : Result := .next (s.setReg x nn)

/-- Add-const (R154): wrapping, no flag. -/
def execAddConst (x : Nibble) (nn : Byte) (s : State) : Result := .next (s.setReg x (s.reg x + nn))

/-- Copy (R155). -/
def execCopy (x y : Nibble) (s : State) : Result := .next (s.setReg x (s.reg y))

/-- Or (R156). -/
def execOrReg (x y : Nibble) (s : State) : Result := .next (s.setReg x (s.reg x ||| s.reg y))

/-- And (R157). -/
def execAndReg (x y : Nibble) (s : State) : Result := .next (s.setReg x (s.reg x &&& s.reg y))

/-- Xor (R158). -/
def execXorReg (x y : Nibble) (s : State) : Result := .next (s.setReg x (s.reg x ^^^ s.reg y))

/-- Add-reg (R159). -/
def execAddReg (x y : Nibble) (s : State) : Result :=
  .next (s.setResultThenFlag x (s.reg x + s.reg y) (carryFlag (s.reg x) (s.reg y)))

/-- Sub-reg (R160). -/
def execSubReg (x y : Nibble) (s : State) : Result :=
  .next (s.setResultThenFlag x (s.reg x - s.reg y) (notBorrowFlag (s.reg x) (s.reg y)))

/-- Sub-reg-reversed (R162). -/
def execSubRegRev (x y : Nibble) (s : State) : Result :=
  .next (s.setResultThenFlag x (s.reg y - s.reg x) (notBorrowFlag (s.reg y) (s.reg x)))

/-- Shift-right (R161): the source is `V[y]`, and both registers receive the result. -/
def execShiftRight (x y : Nibble) (s : State) : Result :=
  .next (s.setFlagThenBoth x y (shiftedOutLow (s.reg y)) (s.reg y >>> 1))

/-- Shift-left (R163): the source is `V[y]`, and both registers receive the result. -/
def execShiftLeft (x y : Nibble) (s : State) : Result :=
  .next (s.setFlagThenBoth x y (shiftedOutHigh (s.reg y)) (s.reg y <<< 1))

/-- Random (R164): a free byte, masked, and the draw is used up (D23, log 7). -/
def execRandom (x : Nibble) (nn : Byte) (s : State) : Result :=
  .next { s.setReg x (Config.draw8 s.draws &&& nn) with draws := s.draws + 1 }

end Sys2Proof.Machine
end

