-- ==== Sys2Proof/Machine/ControlFlow.lean ====
section
/-!
DEFINITION. Control transfer (spec/41_control_flow.md). Each meaning takes the post-fetch state, in which `pc` is a + 2 (R102).
-/

namespace Sys2Proof.Machine

/-- Return (R130): `pc <- Pop()`, the popped address used as it is. -/
def execRet (s : State) : Result :=
  match s.pop with
  | none => s.raiseIn .ret .stackUnderflow none
  | some (target, t) => .next (t.setPc target)

/-- Jump (R131). -/
def execJump (nnn : Addr12) (s : State) : Result := .next (s.setPc (zextAddr nnn))

/-- Call (R132): the post-fetch pc is pushed. -/
def execCall (nnn : Addr12) (s : State) : Result :=
  match s.push s.pc with
  | none => s.raiseIn (.call nnn) .stackOverflow none
  | some t => .next (t.setPc (zextAddr nnn))

/-- Skip-if-equal-const (R133). -/
def execSkipEqConst (x : Nibble) (nn : Byte) (s : State) : Result := .next (s.skipIf (s.reg x == nn))

/-- Skip-if-not-equal-const (R134). -/
def execSkipNeConst (x : Nibble) (nn : Byte) (s : State) : Result := .next (s.skipIf (s.reg x != nn))

/-- Skip-if-equal-reg (R135). -/
def execSkipEqReg (x y : Nibble) (s : State) : Result := .next (s.skipIf (s.reg x == s.reg y))

/-- Skip-if-not-equal-reg (R136). -/
def execSkipNeReg (x y : Nibble) (s : State) : Result := .next (s.skipIf (s.reg x != s.reg y))

/-- Jump-plus (R137): the sum is at most 0x10FE, so 16 bits hold it exactly (D27, log 21). -/
def execJumpPlus (nnn : Addr12) (s : State) : Result := .next (s.setPc (zextAddr nnn + zextByte (s.reg 0)))

end Sys2Proof.Machine
end

