-- ==== Sys2Proof/Machine/Display.lean ====
section
/-!
DEFINITION. The display and the sprite engine (spec/44_display.md).
-/

namespace Sys2Proof.Machine

/-- Clear display (R200). `VF` is not written. -/
def execClear (s : State) : Result := .next { s with disp := Display.blank, redraw := true }

/-- `Place(px, py)` of R202 under each `WRAP_POLICY`: the column and the row of the cell. -/
def place : Config.WrapPolicy → Nat → Nat → Fin 64 × Fin 32
  | .perAxis, px, py => (Fin.ofNat 64 px, Fin.ofNat 32 py)
  | .flatIndex, px, py => (Fin.ofNat 64 ((py * 64 + px) % 2048), Fin.ofNat 32 ((py * 64 + px) % 2048 / 64))

/-- A drawing in progress: the cells, and whether one has gone from on to off. -/
structure Canvas where
  cells : Display
  collided : Bool
deriving DecidableEq, Repr

/-- One pixel of a sprite: a bit 1 inverts its cell and collides where that cell was on; a bit 0 does nothing (R201, R204). -/
def plotPixel (wrap : Config.WrapPolicy) (px py : Nat) (bit : Bool) (c : Canvas) : Canvas :=
  if bit then
    { cells := Display.put c.cells (place wrap px py).1 (place wrap px py).2
        (!Display.get c.cells (place wrap px py).1 (place wrap px py).2),
      collided := c.collided || Display.get c.cells (place wrap px py).1 (place wrap px py).2 }
  else c

/-- The bit of a sprite row at column offset `c`: bit 7 is the leftmost pixel (R203, D8, log 18). -/
def spriteBit (b : Byte) (c : Nat) : Bool := b.getLsbD (7 - c)

/-- One row of a sprite, columns 0 to 7 in order (R201). -/
def plotRow (wrap : Config.WrapPolicy) (px py : Nat) (b : Byte) (c : Canvas) : Canvas :=
  (List.range 8).foldl (fun acc k => plotPixel wrap (px + k) py (spriteBit b k) acc) c

/-- A sprite, row by row downwards (R201). -/
def plotSprite (wrap : Config.WrapPolicy) (px py : Nat) : List Byte → Canvas → Canvas
  | [], c => c
  | b :: rows, c => plotSprite wrap px (py + 1) rows (plotRow wrap px py b c)

/-- The canvas after the sprite of `n` rows at `I` is drawn at (`V[x]`, `V[y]`) (R201). -/
def State.drawn (s : State) (x y n : Nibble) : Canvas :=
  plotSprite s.policies.wrap (s.reg x).toNat (s.reg y).toNat (Memory.readBlock s.mem s.base n.toNat)
    { cells := s.disp, collided := false }

/-- Draw-sprite (R201): the origin is read before `VF` is written; no rows (`n = 0`) read and change nothing (D9, log 19). -/
def execDraw (x y n : Nibble) (s : State) : Result :=
  match outOfRange s.base n.toNat with
  | some d => s.raiseIn (.draw x y n) .memoryOutOfRange (some d)
  | none =>
    .next { s.setReg vf (collisionFlag (s.drawn x y n).collided) with disp := (s.drawn x y n).cells, redraw := true }

end Sys2Proof.Machine
end

