-- ==== Sys2Proof/Machine/KeysTimers.lean ====
section
/-!
DEFINITION. Keys, the key-wait and the timers (spec/45_keys_timers.md). The tick that ends the step follows these (60_exceptions.md R255).
-/

namespace Sys2Proof.Machine

/-- Skip-if-key-pressed (R220): the latch is tested and cleared. -/
def execSkipKey (x : Nibble) (s : State) : Result :=
  match keyIndex (s.reg x) with
  | none => s.raiseIn (.skipKey x) .keyIndexOutOfRange (some (s.reg x).toNat)
  | some k => .next ((s.clearKey k).skipIf (s.key k))

/-- Skip-if-key-not-pressed (R221): the latch is tested and cleared. -/
def execSkipNotKey (x : Nibble) (s : State) : Result :=
  match keyIndex (s.reg x) with
  | none => s.raiseIn (.skipNotKey x) .keyIndexOutOfRange (some (s.reg x).toNat)
  | some k => .next ((s.clearKey k).skipIf (!s.key k))

/-- Get-delay (R222): `DT` before this step's decrement. -/
def execGetDelay (x : Nibble) (s : State) : Result := .next (s.setReg x s.dt)

/-- Get-key (R223): the key arrives later, by the host's `deliver_key`. -/
def execGetKey (x : Nibble) (s : State) : Result := .next { s with waiting := true, waitReg := x }

/-- Set-delay (R224). -/
def execSetDelay (x : Nibble) (s : State) : Result := .next { s with dt := s.reg x }

/-- Set-sound (R225). -/
def execSetSound (x : Nibble) (s : State) : Result := .next { s with st := s.reg x }

end Sys2Proof.Machine
end

