-- ==== Sys2Proof/Machine/Cycle.lean ====
section
/-!
DEFINITION. One fetch-decode-execute-timer cycle (spec/40_cycle.md R100) and when a step is enabled (R101).
-/

namespace Sys2Proof.Machine

/-- The decode and execute phases on a fetched word, from the post-fetch state (R100, R103, R104). -/
def decodeExecute (w : Word) (s : State) : Result :=
  match decode w with
  | .error _ => .next (s.raise .decodeFailure s.fetchAddr (some w) none)
  | .ok i => finishStep (exec i s)

/-- The body of `step()` once it is enabled (R100). A failed fetch leaves `pc` as it was, with no word in the record (R102, R240). -/
def cycle (s : State) : Result :=
  match s.beginStep.fetch with
  | .error d => .next (s.beginStep.raise .memoryOutOfRange s.pc none (some d))
  | .ok w => decodeExecute w s.beginStep.advance

/-- Why no step is enabled, if none is (R101, D14, D15). -/
def stepBlocked (s : State) : Option Fault :=
  match s.status with
  | .faulted e => some (.stepAfterFatalError e)
  | .ready => if s.waiting then some .stepWhileWaiting else none
  | .running => if s.waiting then some .stepWhileWaiting else none

/-- `step()`: the cycle where it is enabled, else a stop (log 2). -/
def stepOrStop (s : State) : Result :=
  match stepBlocked s with
  | some f => .fault f
  | none => cycle s

end Sys2Proof.Machine
end

