-- ==== Sys2Proof/Machine/Step.lean ====
section
/-!
DEFINITION. The step of the machine (spec/40_cycle.md R100, R101), and a state with a given table word where the step fetches next.
-/

namespace Sys2Proof.Machine

/-- One call of `step()`. -/
def step (s : State) : Host.Outcome State Fault Refusal := stepOrStop s

/-- The state with the instruction of a table word stored at `pc`, high byte first (log 23). -/
def State.withFetchWord (s : State) (nbits w : Nat) : State := s.placeWord (tableWord nbits w)

end Sys2Proof.Machine
end

