-- ==== Sys2Proof/Machine/Transactions.lean ====
section
/-!
DEFINITION. Construction (spec/70_reset_and_hazards.md R270) and the host's transactions (40_cycle.md R110 to R115): each is one atomic
change of the whole state, made between steps, with what the host gets back.
-/

namespace Sys2Proof.Machine

/-- Construction with given parameters (R270, R39): memory zero with `FONT` at 0x000, the rest as `State.reset`. -/
def State.construct (p : Config.Params) : State :=
  { State.reset with mem := Memory.writeBlock [] 0 p.font.toList, I := p.resetI, policies := p.policies }

/-- What the host gets back from a transaction (R110). -/
inductive Reply where
  /-- The transaction took effect. -/
  | ok
  /-- `step` raised this fatal error (R107). -/
  | fatal (err : ErrorRecord)
  /-- `load`: the image is above 3584 bytes (R111, R246). -/
  | imageTooLarge
  /-- `load` outside `Ready` (R111, D19). -/
  | notReady
  /-- `deliver_key` with no wait pending (R113, D12). -/
  | noWaitPending
  /-- `deliver_key` with an index above 15 (R113, D13). -/
  | badKeyIndex
  /-- No step is enabled (R101, D14, D15). -/
  | noStep (why : Fault)
  /-- The step met an instruction without a meaning; no instruction is. -/
  | refused (why : Refusal)
deriving DecidableEq, Repr

/-- What a transaction leaves: the reply and the state. -/
structure Answer where
  reply : Reply
  state : State
deriving DecidableEq, Repr

/-- `load(bytes)` (R111): too long an image changes nothing (C4), nor does a load after the first step (D19). -/
def State.load (s : State) (bytes : List Byte) : Answer :=
  if s.status ≠ .ready then { reply := .notReady, state := s }
  else if Config.maxImage < bytes.length then { reply := .imageTooLarge, state := s }
  else { reply := .ok, state := { s with mem := Memory.writeBlock s.mem Config.progBase bytes } }

/-- `deliver_key(k)` (R113). -/
def State.deliverKey (s : State) (k : Nat) : Answer :=
  if s.waiting = false then { reply := .noWaitPending, state := s }
  else if 15 < k then { reply := .badKeyIndex, state := s }
  else { reply := .ok, state := { s.setReg s.waitReg (BitVec.ofNat 8 k) with waiting := false } }

/-- `merge_key_state(P)` (R114): ORed into the latches, in every state (D28). -/
def State.mergeKeyState (s : State) (pressed : Vector Bool 16) : State :=
  { s with keys := Vector.ofFn (fun k : Fin 16 => s.keys[k] || pressed[k]) }

/-- The reply of a step that took place: the error record it raised, if it raised one (R110). -/
def stepReply (t : State) : Reply :=
  match t.status with
  | .ready => .ok
  | .running => .ok
  | .faulted e => .fatal e

/-- What the host can do to the engine (R110). -/
inductive Transaction where
  | load (bytes : List Byte)
  | step
  | deliverKey (k : Nat)
  | mergeKeyState (pressed : Vector Bool 16)
deriving DecidableEq, Repr

/-- `step()` as the host sees it: the state after it, or why none is enabled. -/
def State.stepAnswer (s : State) : Answer :=
  match step s with
  | .next t => { reply := stepReply t, state := t }
  | .fault f => { reply := .noStep f, state := s }
  | .refused r => { reply := .refused r, state := s }

/-- One transaction (R110). The whole history of the machine is a sequence of these (20_memory.md R61). -/
def transact (a : Transaction) (s : State) : Answer :=
  match a with
  | .load bytes => s.load bytes
  | .step => s.stepAnswer
  | .deliverKey k => s.deliverKey k
  | .mergeKeyState pressed => { reply := .ok, state := s.mergeKeyState pressed }

/-- The host's view: the framebuffer and the flags `Redraw`, `Tone` and `Waiting` (R115). -/
structure HostView where
  framebuffer : Display
  redraw : Bool
  tone : Bool
  waiting : Bool
deriving DecidableEq, Repr

/-- The read accessors (R115); they change nothing. -/
def State.view (s : State) : HostView :=
  { framebuffer := s.disp, redraw := s.redraw, tone := s.tone, waiting := s.waiting }

end Sys2Proof.Machine
end

