-- ==== Sys2Proof/Safety.lean ====
section
/-!
DEFINITION. The terms claims are made in: when a step is enabled, how a run ends (spec/40_cycle.md R117), what a step may change, which
error an instruction meets (60_exceptions.md R247), what a sprite covers (44_display.md R201 to R203), and the machine's invariant.
-/

namespace Sys2Proof.Machine

/-- A step is enabled: not faulted and not waiting (R101). -/
def State.enabled (s : State) : Prop := s.status.isFaulted = false ∧ s.waiting = false

/-- A run has ended normally: an idle self-jump at `pc` (R117, D29, log 24). It does not say that the engine stops. -/
def State.endedNormally (s : State) : Prop :=
  s.status = .running ∧ s.waiting = false ∧ s.pc.toNat + 1 < Config.memSize ∧
    Memory.read s.mem s.pc.toNat = 0x10 ||| (s.pc.extractLsb' 8 4).setWidth 8 ∧
    Memory.read s.mem (s.pc.toNat + 1) = s.pc.extractLsb' 0 8

/-- A bad end: a fatal error (R117). -/
def State.badEnd (s : State) : Prop := s.status.isFaulted = true

/-- Held, not ended: waiting for `deliver_key` (R117). -/
def State.held (s : State) : Prop := s.waiting = true

/-! ### The cycle -/

/-- The fetch at `pc` succeeds: both bytes exist, and an odd `pc` is allowed (20_memory.md R56, R58). -/
def State.fetchable (s : State) : Prop :=
  s.pc.toNat + 1 < Config.memSize ∧ ¬(s.policies.oddPc = .fault ∧ s.pc.toNat % 2 = 1)

/-- The big-endian word at `pc`: the byte at `pc` high, the byte after it low (R56). -/
def State.nextWord (s : State) : Word :=
  Memory.read s.mem s.pc.toNat ++ Memory.read s.mem (s.pc.toNat + 1)

/-- The state in which the fetched instruction executes (R100, R102). -/
def State.afterFetch (s : State) : State := { s with status := .running, redraw := false, pc := s.pc + 2 }

/-- An enabled step fetches a word that is the instruction `i`. -/
def State.runs (s : State) (i : Instr) : Prop := s.enabled ∧ s.fetchable ∧ decode s.nextWord = .ok i

/-- One count of a timer: down by one, holding at zero (R257). -/
def countDown (b : Byte) : Byte := if b = 0 then 0 else b - 1

/-- What `DT` holds when the tick of a step that runs `i` comes: the value Set-delay writes, else `DT` as it was (R224, R275). -/
def delayAtTick (i : Instr) (s : State) : Byte :=
  match i with
  | .setDelay x => s.reg x
  | _ => s.dt

/-- What `ST` holds when the tick of a step that runs `i` comes: the value Set-sound writes, else `ST` as it was (R225, R275). -/
def soundAtTick (i : Instr) (s : State) : Byte :=
  match i with
  | .setSound x => s.reg x
  | _ => s.st

/-- The instruction draws: Clear display or Draw-sprite, the two that write cells and set `Redraw` (R29, R32). -/
def isDrawing (i : Instr) : Prop := i = .clear ∨ ∃ x y n, i = .draw x y n

/-! ### Frames -/

/-- The parts of the state a frame speaks of. -/
inductive Component where
  | mem
  | regs
  | pc
  | iReg
  | stack
  | dt
  | st
  | keys
  | disp
  | redraw
  | tone
  | wait
  | status
  | draws
deriving DecidableEq, Repr

/-- The part reads the same in both states: memory byte by byte, registers, stack entries, latches and cells one by one. -/
def Same (c : Component) (s t : State) : Prop :=
  match c with
  | .mem => ∀ a, Memory.read t.mem a = Memory.read s.mem a
  | .regs => ∀ r, t.reg r = s.reg r
  | .pc => t.pc = s.pc
  | .iReg => t.I = s.I
  | .stack => t.sp = s.sp ∧ ∀ k : Fin 16, t.stack[k] = s.stack[k]
  | .dt => t.dt = s.dt
  | .st => t.st = s.st
  | .keys => ∀ k, t.key k = s.key k
  | .disp => ∀ col row, t.pixel col row = s.pixel col row
  | .redraw => t.redraw = s.redraw
  | .tone => t.tone = s.tone
  | .wait => t.waiting = s.waiting ∧ t.waitReg = s.waitReg
  | .status => t.status = s.status
  | .draws => t.draws = s.draws

/-- Nothing outside the named parts differs, and the policies are the same. -/
def OnlyChanges (parts : List Component) (s t : State) : Prop :=
  t.policies = s.policies ∧ ∀ c, c ∉ parts → Same c s t

/-- Every register but the named ones is unchanged. -/
def RegsBut (named : List Nibble) (s t : State) : Prop := ∀ r, r ∉ named → t.reg r = s.reg r

/-- Every byte of memory outside `count` bytes from `start` is unchanged. -/
def MemBut (start count : Nat) (s t : State) : Prop :=
  ∀ a, a < start ∨ start + count ≤ a → Memory.read t.mem a = Memory.read s.mem a

/-- What each instruction may write in its execute phase when it raises nothing (R22, R23, R25, R26, R28, R29, R31, R32, R34, R50). -/
def mayWrite : Instr → List Component
  | .clear => [.disp, .redraw]
  | .ret => [.pc, .stack]
  | .jump _ => [.pc]
  | .call _ => [.pc, .stack]
  | .skipEqConst _ _ => [.pc]
  | .skipNeConst _ _ => [.pc]
  | .skipEqReg _ _ => [.pc]
  | .setConst _ _ => [.regs]
  | .addConst _ _ => [.regs]
  | .copy _ _ => [.regs]
  | .orReg _ _ => [.regs]
  | .andReg _ _ => [.regs]
  | .xorReg _ _ => [.regs]
  | .addReg _ _ => [.regs]
  | .subReg _ _ => [.regs]
  | .shiftRight _ _ => [.regs]
  | .subRegRev _ _ => [.regs]
  | .shiftLeft _ _ => [.regs]
  | .skipNeReg _ _ => [.pc]
  | .setAddress _ => [.iReg]
  | .jumpPlus _ => [.pc]
  | .random _ _ => [.regs, .draws]
  | .draw _ _ _ => [.regs, .disp, .redraw]
  | .skipKey _ => [.pc, .keys]
  | .skipNotKey _ => [.pc, .keys]
  | .getDelay _ => [.regs]
  | .getKey _ => [.wait]
  | .setDelay _ => [.dt]
  | .setSound _ => [.st]
  | .addAddress _ => [.iReg]
  | .fontSprite _ => [.iReg]
  | .storeBcd _ => [.mem]
  | .regDump _ => [.mem, .iReg]
  | .regLoad _ => [.regs, .iReg]

/-! ### Stored bytes -/

/-- The byte at `a` once a Register-dump of `V[0..x]` at `I` is done: the register of its place in the block, else what was there (R184). -/
def dumpedByte (x : Nibble) (s : State) (a : Nat) : Byte :=
  if s.I.toNat ≤ a ∧ a ≤ s.I.toNat + x.toNat then s.reg (BitVec.ofNat 4 (a - s.I.toNat)) else Memory.read s.mem a

/-- The byte at `a` once a Store-BCD of `V[x]` at `I` is done: the digit of its place in the block, else what was there (R183). -/
def bcdByte (x : Nibble) (s : State) (a : Nat) : Byte :=
  if a = s.I.toNat then BitVec.ofNat 8 ((s.reg x).toNat / 100)
  else if a = s.I.toNat + 1 then BitVec.ofNat 8 ((s.reg x).toNat / 10 % 10)
  else if a = s.I.toNat + 2 then BitVec.ofNat 8 ((s.reg x).toNat % 10)
  else Memory.read s.mem a

/-! ### Errors -/

/-- The kind and `detail` of a block access from `start` over `count` bytes, where one of them is out of range (R60, R186). -/
def blockError (start count : Nat) : Option (ErrorKind × Option Nat) :=
  if 0 < count ∧ 4096 < start + count then some (.memoryOutOfRange, some (max start 4096)) else none

/-- The kind and `detail` of a key test on register value `k` (R226). -/
def keyError (k : Nat) : Option (ErrorKind × Option Nat) :=
  if 15 < k then some (.keyIndexOutOfRange, some k) else none

/-- The one check an instruction has of its own, and the error it then raises (R240, R247). -/
def ownError (i : Instr) (s : State) : Option (ErrorKind × Option Nat) :=
  match i with
  | .call _ => if s.sp.val = 16 then some (.stackOverflow, none) else none
  | .ret => if s.sp.val = 0 then some (.stackUnderflow, none) else none
  | .draw _ _ n => blockError s.I.toNat n.toNat
  | .storeBcd _ => blockError s.I.toNat 3
  | .regDump x => blockError s.I.toNat (x.toNat + 1)
  | .regLoad x => blockError s.I.toNat (x.toNat + 1)
  | .skipKey x => keyError (s.reg x).toNat
  | .skipNotKey x => keyError (s.reg x).toNat
  | .clear => none
  | .jump _ => none
  | .skipEqConst _ _ => none
  | .skipNeConst _ _ => none
  | .skipEqReg _ _ => none
  | .setConst _ _ => none
  | .addConst _ _ => none
  | .copy _ _ => none
  | .orReg _ _ => none
  | .andReg _ _ => none
  | .xorReg _ _ => none
  | .addReg _ _ => none
  | .subReg _ _ => none
  | .shiftRight _ _ => none
  | .subRegRev _ _ => none
  | .shiftLeft _ _ => none
  | .skipNeReg _ _ => none
  | .setAddress _ => none
  | .jumpPlus _ => none
  | .random _ _ => none
  | .getDelay _ => none
  | .getKey _ => none
  | .setDelay _ => none
  | .setSound _ => none
  | .addAddress _ => none
  | .fontSprite _ => none

/-! ### Sprites -/

/-- Where R202 puts an unreduced pixel position under each policy, as arithmetic on the cell's column and row. -/
def PixelLands (wrap : Config.WrapPolicy) (px py : Nat) (col : Fin 64) (row : Fin 32) : Prop :=
  match wrap with
  | .perAxis => px % 64 = col.val ∧ py % 32 = row.val
  | .flatIndex => (py * 64 + px) % 2048 = row.val * 64 + col.val

/-- A bit 1 of the sprite of `n` rows at `I` falls on the cell when it is drawn at (`V[x]`, `V[y]`) (R201, R203). -/
def SpriteCovers (s : State) (x y n : Nibble) (col : Fin 64) (row : Fin 32) : Prop :=
  ∃ r < n.toNat, ∃ c < 8, (Memory.read s.mem (s.I.toNat + r)).getLsbD (7 - c) = true ∧
    PixelLands s.policies.wrap ((s.reg x).toNat + c) ((s.reg y).toNat + r) col row

/-! ### The invariant -/

/-- What the record of a faulted engine says of its state and its word (R102, R107, R240, R244). -/
structure RecordFits (e : ErrorRecord) (s : State) : Prop where
  notImage : e.kind ≠ .imageTooLarge
  fetchFailed : e.word = none → e.kind = .memoryOutOfRange ∧ s.pc = e.addr
  wordFetched : ∀ w, e.word = some w → s.pc = e.addr + 2
  illegalWord : ∀ w, e.word = some w → (legalWord w = false ↔ e.kind = .decodeFailure)
  detailGiven : e.detail.isSome = true ↔ (e.kind = .memoryOutOfRange ∨ e.kind = .keyIndexOutOfRange)
  badAddress : e.kind = .memoryOutOfRange → ∀ d, e.detail = some d →
    4096 ≤ d ∨ (s.policies.oddPc = .fault ∧ d % 2 = 1)
  badKey : e.kind = .keyIndexOutOfRange → ∀ d, e.detail = some d → 15 < d ∧ d < 256

/-- What holds of the machine at construction and is kept by every step and every host transaction. -/
structure State.Inv (s : State) : Prop where
  /-- Memory keeps its canonical form inside the 4096 bytes (R50). -/
  memWf : Memory.wf s.mem
  /-- No rule sets `pc` above 0x10FE (R24). -/
  pcBound : s.pc.toNat ≤ 0x10FE
  /-- A stack entry is 0 or the address after a Call, at most 0x1000 (R132). -/
  stackBound : ∀ k : Fin 16, s.stack[k].toNat ≤ 0x1000
  /-- Before the first step `pc` is the entry point (R35, R271). -/
  readyPc : s.status = .ready → s.pc = 0x200
  /-- Only a running engine waits (R34, R101). -/
  waitingRuns : s.waiting = true → s.status = .running
  /-- After a fatal error `Redraw` is false (R107). -/
  faultedRedraw : s.status.isFaulted = true → s.redraw = false
  /-- `Tone` is raised only with `ST` at zero (R33, R256). -/
  toneSilent : s.tone = true → s.st = 0
  /-- The error record fits the state (R240). -/
  record : ∀ e, s.status = .faulted e → RecordFits e s

end Sys2Proof.Machine
end

