-- ==== Sys2Proof/Certificates/Slice0/Obligations.lean ====
section
/-!
DEFINITION. The statements for the provers. Every `exec` statement is about the post-fetch state (spec/40_cycle.md R102), in which `pc` is
a + 2. A statement whose docstring names a decision D<n> rests there on the spec's own choice (or the model's, where a log entry says so).
-/

open Sys2Proof Sys2Proof.Machine

/-! ### Encoding -/

/-- Words written out bit by bit from the map of R74, one or two of each of the sixteen families, decode to the instructions they stand for, and a word
of family 0 that is no instruction fails. All patterns but 00E0, 1nnn and 8xy4 are the spec's general knowledge (K5, log 17). -/
def Obligations.SampleWordsDecode : Prop :=
  decode 0b0000000011100000 = .ok .clear ∧
  decode 0b0000000011101110 = .ok .ret ∧
  decode 0b0001010001010110 = .ok (.jump 0x456) ∧
  decode 0b0010101010111100 = .ok (.call 0xABC) ∧
  decode 0b0011001101000010 = .ok (.skipEqConst 0x3 0x42) ∧
  decode 0b0100001101000010 = .ok (.skipNeConst 0x3 0x42) ∧
  decode 0b0101000100100000 = .ok (.skipEqReg 0x1 0x2) ∧
  decode 0b0110101011111110 = .ok (.setConst 0xA 0xFE) ∧
  decode 0b0111101011111110 = .ok (.addConst 0xA 0xFE) ∧
  decode 0b1000101010110100 = .ok (.addReg 0xA 0xB) ∧
  decode 0b1000000100101110 = .ok (.shiftLeft 0x1 0x2) ∧
  decode 0b1001000100100000 = .ok (.skipNeReg 0x1 0x2) ∧
  decode 0b1010000100100011 = .ok (.setAddress 0x123) ∧
  decode 0b1011001100000001 = .ok (.jumpPlus 0x301) ∧
  decode 0b1100000100001111 = .ok (.random 0x1 0x0F) ∧
  decode 0b1101000100100101 = .ok (.draw 0x1 0x2 0x5) ∧
  decode 0b1110010110011110 = .ok (.skipKey 0x5) ∧
  decode 0b1110010110100001 = .ok (.skipNotKey 0x5) ∧
  decode 0b1111000100110011 = .ok (.storeBcd 0x1) ∧
  decode 0b1111001001010101 = .ok (.regDump 0x2) ∧
  decode 0b0000000100100011 = .error .decodeFailure

/-- R70, R71, R74, R80: the word of every instruction, and its two bytes in front of any others, decode to it. The patterns are the spec's
general knowledge (K4 to K6, log 17). -/
def Obligations.DecodeOfEncodeIsTheInstruction : Prop :=
  ∀ i : Instr, decode (encode i) = .ok i ∧ ∀ rest : List Byte, decodeBytes (encodeBytes i ++ rest) = .ok (i, rest)

/-- R74, R80: a word that decodes is the word of the instruction it decodes to, so the `word` of an error record raised in the execute
phase is the fetched word (log 13). -/
def Obligations.EncodeOfDecodeIsTheWord : Prop :=
  ∀ (w : Word) (i : Instr), decode w = .ok i → encode i = w

/-- R74 to R80, R82: the decoder answers `i` on exactly the words that spec/opcode_table.json (mask, pattern and fields) reads as `i`, and
fails on exactly the words no row accepts. The patterns are the spec's general knowledge (K5, log 17); strictness is D21. -/
def Obligations.DecodeAgreesWithOpcodeTable : Prop :=
  (∀ (w : Word) (i : Instr), decode w = .ok i ↔ i.reads w = true) ∧
  (∀ w : Word, decode w = .error .decodeFailure ↔ legalWord w = false)

/-- R77: family 8 has exactly nine sub-opcodes in `n`, and the words with any other `n` are DecodeFailure. -/
def Obligations.FamilyEightHasNineSubOpcodes : Prop :=
  ∀ x y n : Nibble,
    ((∃ i, decode (0x8#4 ++ x ++ y ++ n) = .ok i) ↔ n ∈ [0x0#4, 0x1#4, 0x2#4, 0x3#4, 0x4#4, 0x5#4, 0x6#4, 0x7#4, 0xE#4]) ∧
    (n ∈ [0x8#4, 0x9#4, 0xA#4, 0xB#4, 0xC#4, 0xD#4, 0xF#4] → decode (0x8#4 ++ x ++ y ++ n) = .error .decodeFailure)

/-! ### The cycle -/

/-- R100, R105: when the bytes at `pc` decode to `i`, an enabled step is `exec i` on the state with `Status` Running, `Redraw` cleared and `pc` two
on, followed by the timer tick unless that raised a fatal error. -/
def Obligations.StepRunsTheDecodedInstruction : Prop :=
  ∀ (s : State) (i : Instr), s.runs i →
    ∃ t, exec i s.afterFetch = .next t ∧
      ((∀ e, t.status ≠ .faulted e) → step s = .next t.timerTick) ∧
      (∀ e, t.status = .faulted e → step s = .next t)

/-- R102, R103, R240, R244, R247: a fetch that fails (an odd `pc` under the fault policy, D1; else a `pc` of 0xFFF or more) and a word that
matches no pattern end the step in the fatal error with that record; the fetch failure leaves `pc`, the decode failure leaves it two on. The
record's form is the spec's own (D17). -/
def Obligations.FetchAndDecodeFailuresAreFatal : Prop :=
  ∀ s : State, s.enabled →
    (s.policies.oddPc = .fault ∧ s.pc.toNat % 2 = 1 →
      step s = .next { s with redraw := false, status := .faulted ⟨.memoryOutOfRange, s.pc, none, some s.pc.toNat⟩ }) ∧
    (¬(s.policies.oddPc = .fault ∧ s.pc.toNat % 2 = 1) → 0xFFF ≤ s.pc.toNat →
      step s = .next { s with
        redraw := false, status := .faulted ⟨.memoryOutOfRange, s.pc, none, some (max s.pc.toNat 4096)⟩ }) ∧
    (s.fetchable → legalWord s.nextWord = false →
      step s = .next { s with
        redraw := false, pc := s.pc + 2, status := .faulted ⟨.decodeFailure, s.pc, some s.nextWord, none⟩ })

/-- R101, R249: no step is enabled after a fatal error nor while waiting for a key. That the model then stops under a name of its own is the
model's choice (D14, D15, log 2). -/
def Obligations.NoStepWhileFaultedOrWaiting : Prop :=
  ∀ s : State,
    (∀ e, s.status = .faulted e → step s = .fault (.stepAfterFatalError e)) ∧
    ((∀ e, s.status ≠ .faulted e) → s.waiting = true → step s = .fault .stepWhileWaiting)

/-- R104, R112: an enabled step always answers a next state, never a stop and never a refusal; so does every instruction's execute phase. -/
def Obligations.EnabledStepAlwaysAnswers : Prop :=
  (∀ s : State, s.enabled → ∃ t, step s = .next t) ∧ (∀ (i : Instr) (s : State), ∃ t, exec i s = .next t)

/-- R107, R248: a step that ends in a fatal error leaves everything as it was but `Status`, `Redraw` (false) and `pc` (two on, unless the fetch
itself failed), and its record holds the fetch address. That nothing of the execute phase is committed is the spec's own reading (D16, log 12); that
`Tone` keeps its value too is R107's, beside the reading of D22 (log 22). -/
def Obligations.FatalErrorsArePrecise : Prop :=
  ∀ (s t : State) (e : ErrorRecord), step s = .next t → t.status = .faulted e →
    e.addr = s.pc ∧
    t = { s with status := .faulted e, redraw := false, pc := if e.word = none then s.pc else s.pc + 2 }

/-- R105, R255: the timer phase runs only in a step whose instruction raises nothing, Get-key included. A fatal step leaves both timers; every other step
counts each timer down by one, holding at zero, from the value it has when the tick comes (a value just set included, R224, R225), and raises `Tone` where
that takes `ST` from one to zero (R256). What a fatal step does to `Tone` is said by FatalErrorsArePrecise. -/
def Obligations.EveryCompletedStepCountsTheTimers : Prop :=
  ∀ s t : State, step s = .next t →
    (t.status.isFaulted = true → t.dt = s.dt ∧ t.st = s.st) ∧
    (t.status.isFaulted = false → ∀ i, decode s.nextWord = .ok i →
      t.dt = countDown (delayAtTick i s) ∧ t.st = countDown (soundAtTick i s) ∧
      (soundAtTick i s = 1 → t.tone = true))

/-- R256: `Tone` is false after every completed step whose tick does not take `ST` from one to zero. That reading of "for this cycle only" is the spec's
own (D22, log 22). -/
def Obligations.ToneIsForOneStepOnly : Prop :=
  ∀ (s t : State) (i : Instr), step s = .next t → t.status.isFaulted = false → decode s.nextWord = .ok i →
    soundAtTick i s ≠ 1 → t.tone = false

/-- R32: every step clears `Redraw` first, and Clear display and Draw-sprite set it: what the host reads of it after a step that completed is true exactly
when the instruction was one of the two, and after a fatal one it is false. -/
def Obligations.RedrawMarksTheDrawingSteps : Prop :=
  ∀ s t : State, step s = .next t →
    (t.status.isFaulted = false → ∀ i, decode s.nextWord = .ok i → (t.view.redraw = true ↔ isDrawing i)) ∧
    (t.status.isFaulted = true → t.view.redraw = false)

/-- R247, R240: an instruction raises an error exactly when its own check fails, with the kind and `detail` of that check, its own address and its own
word, and changes nothing else; else it completes with `Status` as it was. The record and `detail` are the spec's own (D17, R186); the key check is
D11. That a store below 0x200 raises nothing is D25 (R52, log 20), a blind spot of 93, and that a Draw of no rows raises nothing is D9 (log 19). -/
def Obligations.InstructionsRaiseExactlyTheirOwnError : Prop :=
  ∀ (i : Instr) (s : State),
    (∀ kind detail, ownError i s = some (kind, detail) →
      exec i s = .next { s with status := .faulted ⟨kind, s.pc - 2, some (encode i), detail⟩ }) ∧
    (ownError i s = none → ∃ t, exec i s = .next t ∧ t.status = s.status)

/-! ### Whole-machine rules -/

/-- The frame of every instruction (R22, R23, R25, R26, R28, R31, R34, R50): an execute phase that raises nothing changes only the parts of the state
listed for its instruction in `mayWrite`; everything else, every byte of memory included, reads as before. -/
def Obligations.InstructionsChangeOnlyTheirParts : Prop :=
  ∀ (i : Instr) (s t : State), exec i s = .next t → t.status = s.status → OnlyChanges (mayWrite i) s t

/-- R29: the display is 64 by 32 cells in row-major order, the cell in `col`, `row` at flat index `row * 64 + col`; a step that changes a cell has run
Clear display or Draw-sprite, and no other transaction of the host changes one. -/
def Obligations.OnlyClearAndDrawMutateTheDisplay : Prop :=
  (∀ (s : State) (col : Fin 64) (row : Fin 32),
    (s.disp.toList.flatMap Vector.toList)[row.val * 64 + col.val]? = some (s.pixel col row)) ∧
  (∀ s t : State, step s = .next t → ∀ col row, t.pixel col row ≠ s.pixel col row →
    ∃ i, decode s.nextWord = .ok i ∧ isDrawing i) ∧
  (∀ (a : Transaction) (s : State), a ≠ .step → ∀ col row, (transact a s).state.pixel col row = s.pixel col row)

/-- R50: a step that changes a byte of memory has run Store-BCD or Register-dump, and the byte is one of the block that starts at `I`: three
bytes, or x + 1. -/
def Obligations.OnlyBcdAndDumpChangeMemory : Prop :=
  ∀ s t : State, step s = .next t → ∀ a, Memory.read t.mem a ≠ Memory.read s.mem a →
    (∃ x, decode s.nextWord = .ok (.storeBcd x) ∧ s.I.toNat ≤ a ∧ a < s.I.toNat + 3) ∨
    (∃ x, decode s.nextWord = .ok (.regDump x) ∧ s.I.toNat ≤ a ∧ a < s.I.toNat + (x.toNat + 1))

/-- R37, R257: no instruction reads `ST`: changing `ST` and `Tone` before a step changes nothing but `ST` and `Tone` after it. -/
def Obligations.SoundTimerIsSeenOnlyThroughTone : Prop :=
  ∀ (s t : State) (st' : Byte) (tone' : Bool), step s = .next t →
    ∃ u, step { s with st := st', tone := tone' } = .next u ∧ { u with st := t.st, tone := t.tone } = t

/-- R39, R270, R24: the machine right after construction meets the invariant, for every font, `RESET_I` and policies; so does `State.reset`, which is
construction with the defaults. The values of `Waiting`, `Tone` and `Status` it uses are the spec's own choices (D6, D19, log 6). -/
def Obligations.ResetMeetsTheInvariant : Prop :=
  State.reset.Inv ∧ ∀ p : Config.Params, (State.construct p).Inv

/-- R24, R50, R107, R132, R240: every step from a state that meets the invariant ends in one that meets it. The invariant includes clauses that rest
on the spec's own choices (D2, D16, D17, D22, D27). -/
def Obligations.EveryStepKeepsTheInvariant : Prop :=
  ∀ s t : State, s.Inv → step s = .next t → t.Inv

/-- R61, R110: every host transaction, whatever it replies, keeps the invariant; so it holds along every history. What a transaction does
outside its conditions is the spec's own choice (D12, D13, D19, D28, log 16). -/
def Obligations.EveryTransactionKeepsTheInvariant : Prop :=
  ∀ (a : Transaction) (s : State), s.Inv → (transact a s).state.Inv

/-- R50: two memories in canonical form that read alike at every address are the same data. The form is the model's own (log 23). -/
def Obligations.EqualReadsMeanEqualMemories : Prop :=
  ∀ m m' : Memory, Memory.wf m → Memory.wf m' → (∀ a, Memory.read m a = Memory.read m' a) → m = m'

/-! ### Control transfer -/

/-- R131: Jump's encoding is `1nnn`; it sets `pc` to the target exactly, raises nothing and writes nothing else. -/
def Obligations.JumpSetsTheCounter : Prop :=
  ∀ (nnn : Addr12) (s : State), decode (0x1#4 ++ nnn) = .ok (.jump nnn) ∧
    ∃ t, exec (.jump nnn) s = .next t ∧ t.pc.toNat = nnn.toNat ∧ OnlyChanges [.pc] s t

/-- R132, R27: Call with an entry free pushes the post-fetch `pc` and jumps. `SP` as a count is the spec's own (D3, log 8). -/
def Obligations.CallPushesAndJumps : Prop :=
  ∀ (nnn : Addr12) (s : State), s.sp.val < 16 →
    ∃ t, exec (.call nnn) s = .next t ∧ t.pc.toNat = nnn.toNat ∧ t.sp.val = s.sp.val + 1 ∧
      (∀ k : Fin 16, t.stack[k] = if k.val = s.sp.val then s.pc else s.stack[k]) ∧
      OnlyChanges [.pc, .stack] s t

/-- R130, R27: Return with an entry in use sets `pc` to the top entry and leaves that entry's value in place. `SP` as a count is the spec's own
(D3, log 8). -/
def Obligations.ReturnPopsTheTop : Prop :=
  ∀ (s : State) (top : Fin 16), s.sp.val = top.val + 1 →
    ∃ t, exec .ret s = .next t ∧ t.pc = s.stack[top] ∧ t.sp.val = top.val ∧
      (∀ k : Fin 16, t.stack[k] = s.stack[k]) ∧ OnlyChanges [.pc, .stack] s t

/-- R242, R243, R130, R132: Call with all 16 entries in use raises StackOverflow and Return with none raises StackUnderflow; nothing but `Status`
changes. `SP` and the record are the spec's own (D3, D17). -/
def Obligations.StackLimitsAreFatal : Prop :=
  ∀ s : State,
    (s.sp.val = 16 → ∀ nnn : Addr12, ∃ t, exec (.call nnn) s = .next t ∧
      t.status = .faulted ⟨.stackOverflow, s.pc - 2, some (encode (.call nnn)), none⟩ ∧ OnlyChanges [.status] s t) ∧
    (s.sp.val = 0 → ∃ t, exec .ret s = .next t ∧
      t.status = .faulted ⟨.stackUnderflow, s.pc - 2, some 0x00EE, none⟩ ∧ OnlyChanges [.status] s t)

/-- S12 of 95_test_vectors.md, R130, R132: a Call followed by a Return, with anything in between that leaves the stack alone, comes back to the
instruction after the Call with the stack at its old depth. -/
def Obligations.ReturnUndoesCall : Prop :=
  ∀ (nnn : Addr12) (s t u : State), s.sp.val < 16 → exec (.call nnn) s = .next t → Same .stack t u →
    ∃ r, exec .ret u = .next r ∧ r.pc = s.pc ∧ r.sp = s.sp

/-- R133 to R136, R138: each conditional skip adds 2 to the post-fetch `pc` when its comparison holds and nothing when it does not, and writes nothing
else. -/
def Obligations.ConditionalSkipsCompare : Prop :=
  ∀ (x y : Nibble) (nn : Byte) (s : State),
    (∃ t, exec (.skipEqConst x nn) s = .next t ∧ OnlyChanges [.pc] s t ∧
      t.pc = if s.reg x = nn then s.pc + 2 else s.pc) ∧
    (∃ t, exec (.skipNeConst x nn) s = .next t ∧ OnlyChanges [.pc] s t ∧
      t.pc = if s.reg x = nn then s.pc else s.pc + 2) ∧
    (∃ t, exec (.skipEqReg x y) s = .next t ∧ OnlyChanges [.pc] s t ∧
      t.pc = if s.reg x = s.reg y then s.pc + 2 else s.pc) ∧
    (∃ t, exec (.skipNeReg x y) s = .next t ∧ OnlyChanges [.pc] s t ∧
      t.pc = if s.reg x = s.reg y then s.pc else s.pc + 2)

/-- R137: Jump-plus sets `pc` to the exact sum of the address and `V[0]`, not reduced to 12 bits (D27, log 21). -/
def Obligations.JumpPlusAddsExactly : Prop :=
  ∀ (nnn : Addr12) (s : State),
    ∃ t, exec (.jumpPlus nnn) s = .next t ∧ t.pc.toNat = nnn.toNat + (s.reg 0).toNat ∧ OnlyChanges [.pc] s t

/-! ### Register arithmetic -/

/-- R153, R154, R150: Set-const stores the immediate; Add-const stores the sum modulo 256 and writes no flag. -/
def Obligations.ImmediateFormsWriteOneRegister : Prop :=
  ∀ (x : Nibble) (nn : Byte) (s : State),
    (∃ t, exec (.setConst x nn) s = .next t ∧ t.reg x = nn ∧ RegsBut [x] s t ∧ OnlyChanges [.regs] s t) ∧
    (∃ t, exec (.addConst x nn) s = .next t ∧ (t.reg x).toNat = ((s.reg x).toNat + nn.toNat) % 256 ∧
      RegsBut [x] s t ∧ OnlyChanges [.regs] s t)

/-- R155 to R158: Copy, Or, And and Xor write `V[x]` alone, bit by bit, and no flag. -/
def Obligations.CopyAndBitwiseWriteOneRegister : Prop :=
  ∀ (x y : Nibble) (s : State),
    (∃ t, exec (.copy x y) s = .next t ∧ t.reg x = s.reg y ∧ RegsBut [x] s t ∧ OnlyChanges [.regs] s t) ∧
    (∃ t, exec (.orReg x y) s = .next t ∧
      (∀ k < 8, (t.reg x).getLsbD k = ((s.reg x).getLsbD k || (s.reg y).getLsbD k)) ∧
      RegsBut [x] s t ∧ OnlyChanges [.regs] s t) ∧
    (∃ t, exec (.andReg x y) s = .next t ∧
      (∀ k < 8, (t.reg x).getLsbD k = ((s.reg x).getLsbD k && (s.reg y).getLsbD k)) ∧
      RegsBut [x] s t ∧ OnlyChanges [.regs] s t) ∧
    (∃ t, exec (.xorReg x y) s = .next t ∧
      (∀ k < 8, (t.reg x).getLsbD k = ((s.reg x).getLsbD k ^^ (s.reg y).getLsbD k)) ∧
      RegsBut [x] s t ∧ OnlyChanges [.regs] s t)

/-- R159, R152: Add-reg stores the sum modulo 256 and sets `VF` to the carry; where `x` is F, `VF` ends as the carry (D10, log 10). -/
def Obligations.AddRegSetsCarry : Prop :=
  ∀ (x y : Nibble) (s : State), ∃ t, exec (.addReg x y) s = .next t ∧
    (x ≠ 0xF → (t.reg x).toNat = ((s.reg x).toNat + (s.reg y).toNat) % 256) ∧
    t.reg 0xF = (if (s.reg x).toNat + (s.reg y).toNat > 255 then 1 else 0) ∧
    RegsBut [x, 0xF] s t ∧ OnlyChanges [.regs] s t

/-- R160, R162, R152: Sub-reg and Sub-reg-reversed store the difference modulo 256 and set `VF` to not-borrow; where `x` is F, `VF` ends as the flag
(D10, log 10). -/
def Obligations.SubtractionsSetNotBorrow : Prop :=
  ∀ (x y : Nibble) (s : State),
    (∃ t, exec (.subReg x y) s = .next t ∧
      (x ≠ 0xF → (t.reg x).toNat = ((s.reg x).toNat + 256 - (s.reg y).toNat) % 256) ∧
      t.reg 0xF = (if (s.reg x).toNat < (s.reg y).toNat then 0 else 1) ∧
      RegsBut [x, 0xF] s t ∧ OnlyChanges [.regs] s t) ∧
    (∃ t, exec (.subRegRev x y) s = .next t ∧
      (x ≠ 0xF → (t.reg x).toNat = ((s.reg y).toNat + 256 - (s.reg x).toNat) % 256) ∧
      t.reg 0xF = (if (s.reg y).toNat < (s.reg x).toNat then 0 else 1) ∧
      RegsBut [x, 0xF] s t ∧ OnlyChanges [.regs] s t)

/-- R161, R163, R152: both shifts take `V[y]`, store the result in `V[x]` and `V[y]`, and set `VF` to the bit shifted out (Shift-left leaves it in place,
0x80 or 0); where `x` or `y` is F, `VF` ends as the shifted value (D10, log 10). -/
def Obligations.ShiftsWriteBothRegisters : Prop :=
  ∀ (x y : Nibble) (s : State),
    (∃ t, exec (.shiftRight x y) s = .next t ∧
      (t.reg x).toNat = (s.reg y).toNat / 2 ∧ (t.reg y).toNat = (s.reg y).toNat / 2 ∧
      (x ≠ 0xF → y ≠ 0xF → (t.reg 0xF).toNat = (s.reg y).toNat % 2) ∧
      RegsBut [x, y, 0xF] s t ∧ OnlyChanges [.regs] s t) ∧
    (∃ t, exec (.shiftLeft x y) s = .next t ∧
      (t.reg x).toNat = (s.reg y).toNat * 2 % 256 ∧ (t.reg y).toNat = (s.reg y).toNat * 2 % 256 ∧
      (x ≠ 0xF → y ≠ 0xF → t.reg 0xF = (if 128 ≤ (s.reg y).toNat then 0x80 else 0x00)) ∧
      RegsBut [x, y, 0xF] s t ∧ OnlyChanges [.regs] s t)

/-- R164: Random stores the byte of the next draw, masked by `nn`, and uses that draw up. The byte is a free value (D23, log 7): `Config.draw8` has no body, so
nothing is known of it. That a draw is numbered by the field `draws` is the model's own (log 7). -/
def Obligations.RandomIsMasked : Prop :=
  ∀ (x : Nibble) (nn : Byte) (s : State), ∃ t, exec (.random x nn) s = .next t ∧
    t.reg x = Config.draw8 s.draws &&& nn ∧ t.draws = s.draws + 1 ∧ RegsBut [x] s t ∧ OnlyChanges [.regs, .draws] s t

/-! ### The address register and memory transfers -/

/-- R180, R181, R182: Set-address, Add-address (modulo 65536, D4, log 9) and Get-font-sprite (not masked) write `I` alone, no flag. -/
def Obligations.AddressInstructionsWriteI : Prop :=
  ∀ (nnn : Addr12) (x : Nibble) (s : State),
    (∃ t, exec (.setAddress nnn) s = .next t ∧ t.I.toNat = nnn.toNat ∧ OnlyChanges [.iReg] s t) ∧
    (∃ t, exec (.addAddress x) s = .next t ∧ t.I.toNat = (s.I.toNat + (s.reg x).toNat) % 65536 ∧
      OnlyChanges [.iReg] s t) ∧
    (∃ t, exec (.fontSprite x) s = .next t ∧ t.I.toNat = 5 * (s.reg x).toNat ∧ OnlyChanges [.iReg] s t)

/-- R183: Store-BCD with its three bytes in range stores the hundreds, tens and units at `I`, `I` + 1 and `I` + 2, digits 0 to 9 that make up the
value, and changes no other byte and not `I`. That a store below 0x200 succeeds rests on D25 (R52, log 20), the spec's own choice and a blind spot of
93. -/
def Obligations.StoreBcdWritesTheDigits : Prop :=
  ∀ (x : Nibble) (s : State), s.I.toNat + 2 < 4096 →
    ∃ t, exec (.storeBcd x) s = .next t ∧
      (Memory.read t.mem s.I.toNat).toNat = (s.reg x).toNat / 100 ∧
      (Memory.read t.mem (s.I.toNat + 1)).toNat = (s.reg x).toNat / 10 % 10 ∧
      (Memory.read t.mem (s.I.toNat + 2)).toNat = (s.reg x).toNat % 10 ∧
      MemBut s.I.toNat 3 s t ∧ OnlyChanges [.mem] s t

/-- R184: Register-dump with its block in range stores `V[0]` to `V[x]` at `I` and up, changes no other byte, and advances `I` by x + 1 (modulo 65536,
D4). That a store below 0x200 succeeds rests on D25 (R52, log 20), the spec's own choice and a blind spot of 93. -/
def Obligations.RegisterDumpStoresTheRun : Prop :=
  ∀ (x : Nibble) (s : State), s.I.toNat + x.toNat < 4096 →
    ∃ t, exec (.regDump x) s = .next t ∧
      (∀ k : Nibble, k ≤ x → Memory.read t.mem (s.I.toNat + k.toNat) = s.reg k) ∧
      MemBut s.I.toNat (x.toNat + 1) s t ∧
      t.I.toNat = (s.I.toNat + x.toNat + 1) % 65536 ∧ OnlyChanges [.mem, .iReg] s t

/-- R185: Register-load with its block in range loads `V[0]` to `V[x]` from `I` and up, no other register, and advances `I` by x + 1 (modulo 65536, D4). -/
def Obligations.RegisterLoadLoadsTheRun : Prop :=
  ∀ (x : Nibble) (s : State), s.I.toNat + x.toNat < 4096 →
    ∃ t, exec (.regLoad x) s = .next t ∧
      (∀ k : Nibble, k ≤ x → t.reg k = Memory.read s.mem (s.I.toNat + k.toNat)) ∧
      (∀ k : Nibble, x < k → t.reg k = s.reg k) ∧
      t.I.toNat = (s.I.toNat + x.toNat + 1) % 65536 ∧ OnlyChanges [.regs, .iReg] s t

/-- R60, R183 to R186: a transfer with a byte out of range raises MemoryOutOfRange with the first such address and changes nothing but `Status`. That
nothing is transferred is D16, the address reported D17 (log 12). -/
def Obligations.TransfersOutOfRangeAreFatal : Prop :=
  ∀ (i : Instr) (x : Nibble) (count : Nat) (s : State),
    (i = .storeBcd x ∧ count = 3) ∨ (i = .regDump x ∧ count = x.toNat + 1) ∨ (i = .regLoad x ∧ count = x.toNat + 1) →
    4096 < s.I.toNat + count →
    ∃ t, exec i s = .next t ∧
      t.status = .faulted ⟨.memoryOutOfRange, s.pc - 2, some (encode i), some (max s.I.toNat 4096)⟩ ∧
      OnlyChanges [.status] s t

/-- R185 ("inverse of dump"), R184: a Register-load of what a Register-dump stored, from the same address, gives `V[0]` to `V[x]` their values back,
whatever the registers hold by then. That a dump below 0x200 succeeds rests on D25 (R52, log 20), the spec's own choice and a blind spot of 93. -/
def Obligations.RegisterLoadInvertsDump : Prop :=
  ∀ (x : Nibble) (s t u : State), s.I.toNat + x.toNat < 4096 → exec (.regDump x) s = .next t →
    Same .mem t u → u.I = s.I →
    ∃ r, exec (.regLoad x) u = .next r ∧ (∀ k : Nibble, k ≤ x → r.reg k = s.reg k) ∧ r.I = t.I

/-- R63, R274: what a step's Register-dump or Store-BCD stores, over both bytes, one byte or none of the next instruction, is what the next step's
fetch reads, with no delay. That a store below 0x200, such as a block from 0x1FF over the next instruction, succeeds rests on D25 (R52, log 20), the
spec's own choice and a blind spot of 93. -/
def Obligations.DumpedBytesAreFetchedNext : Prop :=
  ∀ (x : Nibble) (s : State), s.afterFetch.fetchable →
    (s.runs (.regDump x) → s.I.toNat + x.toNat < 4096 →
      ∃ t, step s = .next t ∧ t.pc = s.pc + 2 ∧
        t.fetch = .ok (dumpedByte x s (s.pc.toNat + 2) ++ dumpedByte x s (s.pc.toNat + 3))) ∧
    (s.runs (.storeBcd x) → s.I.toNat + 2 < 4096 →
      ∃ t, step s = .next t ∧ t.pc = s.pc + 2 ∧
        t.fetch = .ok (bcdByte x s (s.pc.toNat + 2) ++ bcdByte x s (s.pc.toNat + 3)))

/-! ### The display -/

/-- R200: Clear display's encoding is `00E0`; it turns every cell off and requests redraw, raises nothing and writes nothing else (`VF` included). -/
def Obligations.ClearBlanksTheDisplay : Prop :=
  ∀ s : State, decode 0x00E0 = .ok .clear ∧
    ∃ t, exec .clear s = .next t ∧ (∀ col row, t.pixel col row = false) ∧ t.redraw = true ∧
      OnlyChanges [.disp, .redraw] s t

/-- R201 to R204: Draw-sprite with its rows in range inverts exactly the cells a sprite bit 1 falls on, sets `VF` to 1 exactly when one of them was on,
requests redraw, and writes nothing else. The placing under each policy is D7, the bit order D8 (log 18), no rows D9 (log 19). -/
def Obligations.DrawInvertsTheCoveredCells : Prop :=
  ∀ (x y n : Nibble) (s : State), (n.toNat = 0 ∨ s.I.toNat + n.toNat ≤ 4096) →
    ∃ t, exec (.draw x y n) s = .next t ∧
      (∀ col row, SpriteCovers s x y n col row → t.pixel col row = !s.pixel col row) ∧
      (∀ col row, ¬SpriteCovers s x y n col row → t.pixel col row = s.pixel col row) ∧
      ((∃ col row, SpriteCovers s x y n col row ∧ s.pixel col row = true) → t.reg 0xF = 1) ∧
      ((∀ col row, SpriteCovers s x y n col row → s.pixel col row = false) → t.reg 0xF = 0) ∧
      t.redraw = true ∧ RegsBut [0xF] s t ∧ OnlyChanges [.regs, .disp, .redraw] s t

/-- R201, R60: Draw-sprite with a row byte out of range raises MemoryOutOfRange with the first such address and changes nothing but `Status` (D16, D17,
log 12). -/
def Obligations.DrawOutOfRangeIsFatal : Prop :=
  ∀ (x y n : Nibble) (s : State), 0 < n.toNat → 4096 < s.I.toNat + n.toNat →
    ∃ t, exec (.draw x y n) s = .next t ∧
      t.status = .faulted ⟨.memoryOutOfRange, s.pc - 2, some (encode (.draw x y n)), some (max s.I.toNat 4096)⟩ ∧
      OnlyChanges [.status] s t

/-- R202: under both policies the 8n cells of one Draw are distinct, so no cell is inverted twice by one Draw. -/
def Obligations.SpritePixelsLandApart : Prop :=
  ∀ (wrap : Config.WrapPolicy) (px py c c' r r' : Nat), c < 8 → c' < 8 → r < 15 → r' < 15 →
    place wrap (px + c) (py + r) = place wrap (px + c') (py + r') → c = c' ∧ r = r'

/-- S9 of 95_test_vectors.md, R201, R204: drawing a sprite on a blank display and drawing it again at the same place leaves the display all off, and the
second Draw reports a collision exactly when the sprite has a bit 1. The origin is not in `VF`, which the first Draw overwrites
(DrawInvertsTheCoveredCells covers that form). No rows draw nothing (D9, log 19). -/
def Obligations.DrawingTwiceErasesAndCollides : Prop :=
  ∀ (x y n : Nibble) (s t : State), x ≠ 0xF → y ≠ 0xF → (n.toNat = 0 ∨ s.I.toNat + n.toNat ≤ 4096) →
    (∀ col row, s.pixel col row = false) → exec (.draw x y n) s = .next t →
    t.reg 0xF = 0 ∧ ∃ u, exec (.draw x y n) t = .next u ∧ (∀ col row, u.pixel col row = false) ∧
      ((∃ col row, SpriteCovers s x y n col row) → u.reg 0xF = 1) ∧
      ((∀ col row, ¬SpriteCovers s x y n col row) → u.reg 0xF = 0)

/-! ### Keys and timers -/

/-- R220, R221, R31: a key skip on an index up to 15 skips when the latch is set (not set), clears that latch whichever it was, and changes nothing else. -/
def Obligations.KeySkipsTestAndClear : Prop :=
  ∀ (x : Nibble) (k : Fin 16) (s : State), (s.reg x).toNat = k.val →
    (∃ t, exec (.skipKey x) s = .next t ∧ t.pc = (if s.key k = true then s.pc + 2 else s.pc) ∧
      t.key k = false ∧ (∀ j, j ≠ k → t.key j = s.key j) ∧ OnlyChanges [.pc, .keys] s t) ∧
    (∃ t, exec (.skipNotKey x) s = .next t ∧ t.pc = (if s.key k = true then s.pc else s.pc + 2) ∧
      t.key k = false ∧ (∀ j, j ≠ k → t.key j = s.key j) ∧ OnlyChanges [.pc, .keys] s t)

/-- R226, R245: a key skip on an index above 15 raises KeyIndexOutOfRange with that index, and changes nothing but `Status`: the spec's own addition (D11,
log 11). -/
def Obligations.KeyIndexAboveFifteenIsFatal : Prop :=
  ∀ (x : Nibble) (s : State), 15 < (s.reg x).toNat →
    (∃ t, exec (.skipKey x) s = .next t ∧ OnlyChanges [.status] s t ∧
      t.status = .faulted ⟨.keyIndexOutOfRange, s.pc - 2, some (encode (.skipKey x)), some (s.reg x).toNat⟩) ∧
    (∃ t, exec (.skipNotKey x) s = .next t ∧ OnlyChanges [.status] s t ∧
      t.status = .faulted ⟨.keyIndexOutOfRange, s.pc - 2, some (encode (.skipNotKey x)), some (s.reg x).toNat⟩)

/-- R220: a second test of the same key, by either instruction and with the latches untouched in between, finds it not pressed. -/
def Obligations.SecondKeyTestFindsNotPressed : Prop :=
  ∀ (i : Instr) (x y : Nibble) (s t u : State), i = .skipKey x ∨ i = .skipNotKey x → (s.reg x).toNat ≤ 15 →
    exec i s = .next t → Same .keys t u → u.reg y = s.reg x →
    (∃ r, exec (.skipKey y) u = .next r ∧ r.pc = u.pc) ∧ (∃ r, exec (.skipNotKey y) u = .next r ∧ r.pc = u.pc + 2)

/-- R222, R224, R225: Get-delay copies `DT` to `V[x]`; Set-delay and Set-sound copy `V[x]` to `DT` and `ST`; each writes nothing else in the execute phase
(the tick of the same step follows, as another statement says). -/
def Obligations.TimerInstructionsCopy : Prop :=
  ∀ (x : Nibble) (s : State),
    (∃ t, exec (.getDelay x) s = .next t ∧ t.reg x = s.dt ∧ RegsBut [x] s t ∧ OnlyChanges [.regs] s t) ∧
    (∃ t, exec (.setDelay x) s = .next t ∧ t.dt = s.reg x ∧ OnlyChanges [.dt] s t) ∧
    (∃ t, exec (.setSound x) s = .next t ∧ t.st = s.reg x ∧ OnlyChanges [.st] s t)

/-- R223: Get-key sets `Waiting` and `WaitReg` and writes nothing else; `V[x]` waits for `deliver_key`. -/
def Obligations.GetKeyStartsTheWait : Prop :=
  ∀ (x : Nibble) (s : State),
    ∃ t, exec (.getKey x) s = .next t ∧ t.waiting = true ∧ t.waitReg = x ∧ OnlyChanges [.wait] s t

/-! ### The host interface -/

/-- R8, R39, R51, R270: construction with any font, `RESET_I` and policies leaves the font at 0x000 to 0x04F and zero in every other byte, and everything else
as `State.reset` has it; `State.reset` is construction with the defaults. The values of `I`, `Disp`, `Key`, the flags, `WaitReg` and `Status` are the spec's
own (D5, D6, D19, log 5 and log 6), the default font is general knowledge (D20, log 4). -/
def Obligations.ConstructionInstallsTheFont : Prop :=
  State.construct Config.defaultParams = State.reset ∧
  ∀ p : Config.Params,
    (∀ a : Fin 80, Memory.read (State.construct p).mem a.val = p.font[a]) ∧
    (∀ a, 80 ≤ a → Memory.read (State.construct p).mem a = 0) ∧
    (∀ r, (State.construct p).reg r = 0) ∧ (∀ k : Fin 16, (State.construct p).stack[k] = 0) ∧
    (State.construct p).sp = 0 ∧ (State.construct p).dt = 0 ∧ (State.construct p).st = 0 ∧
    (State.construct p).pc = 0x200 ∧ (State.construct p).I = p.resetI ∧
    (∀ col row, (State.construct p).pixel col row = false) ∧ (∀ k, (State.construct p).key k = false) ∧
    (State.construct p).redraw = false ∧ (State.construct p).tone = false ∧
    (State.construct p).waiting = false ∧ (State.construct p).waitReg = 0 ∧ (State.construct p).status = .ready ∧
    (State.construct p).policies = p.policies

/-- R111, R54, R246: in `Ready`, `load` of at most 3584 bytes puts byte i at 0x200 + i and changes no other byte and nothing else; a longer image changes
nothing. Outside `Ready` nothing changes either: the spec's own (D19, log 16). -/
def Obligations.LoadCopiesTheImage : Prop :=
  ∀ (s : State) (bytes : List Byte),
    (s.status = .ready → bytes.length ≤ 3584 →
      (s.load bytes).reply = .ok ∧
      (∀ i : Fin bytes.length, Memory.read (s.load bytes).state.mem (0x200 + i.val) = bytes[i]) ∧
      MemBut 0x200 bytes.length s (s.load bytes).state ∧ OnlyChanges [.mem] s (s.load bytes).state) ∧
    (s.status = .ready → 3584 < bytes.length → s.load bytes = ⟨.imageTooLarge, s⟩) ∧
    (s.status ≠ .ready → s.load bytes = ⟨.notReady, s⟩)

/-- R113: `deliver_key` with a wait pending and an index up to 15 writes it to the target register and clears the wait flag, and nothing else changes; any
other call is rejected with no state change (D12, D13, log 16). -/
def Obligations.DeliverKeyWritesTheTarget : Prop :=
  ∀ (s : State) (k : Nat),
    (s.waiting = true → k ≤ 15 →
      (s.deliverKey k).reply = .ok ∧ ((s.deliverKey k).state.reg s.waitReg).toNat = k ∧
      (s.deliverKey k).state.waiting = false ∧ (s.deliverKey k).state.waitReg = s.waitReg ∧
      RegsBut [s.waitReg] s (s.deliverKey k).state ∧ OnlyChanges [.regs, .wait] s (s.deliverKey k).state) ∧
    (s.waiting = true → 15 < k → s.deliverKey k = ⟨.badKeyIndex, s⟩) ∧
    (s.waiting = false → s.deliverKey k = ⟨.noWaitPending, s⟩)

/-- R114: `merge_key_state` ORs the 16 booleans into the latches in every state and changes nothing else; a pending wait stays pending.
That it is admitted in every state is the spec's own choice (D28, log 16). -/
def Obligations.MergeKeyStateOrsTheLatches : Prop :=
  ∀ (s : State) (pressed : Vector Bool 16),
    (transact (.mergeKeyState pressed) s).reply = .ok ∧
    (∀ k : Fin 16, (transact (.mergeKeyState pressed) s).state.key k = (s.key k || pressed[k])) ∧
    OnlyChanges [.keys] s (transact (.mergeKeyState pressed) s).state

/-- S14 of 95_test_vectors.md, R223, R101, R113: a step that runs Get-key leaves the machine waiting with no step enabled; delivering a key puts it in the
target register and enables the step at the next instruction. That `step`, called while the machine waits, stops under a name of its own is the model's
choice (D14, log 2). -/
def Obligations.GetKeyThenDeliverResumes : Prop :=
  ∀ (s t : State) (x : Nibble) (k : Nat), s.runs (.getKey x) → step s = .next t → k ≤ 15 →
    step t = .fault .stepWhileWaiting ∧ (t.reg x = s.reg x) ∧
    ((t.deliverKey k).state.reg x).toNat = k ∧ (t.deliverKey k).state.pc = s.pc + 2 ∧ (t.deliverKey k).state.enabled

/-- R261: while the machine waits, every transaction but `deliver_key` leaves every part of the state unchanged, except what `merge_key_state` ORs into the
latches; the timers are frozen. That no step is taken there is D14 (log 2), that `load` (R111) is rejected is
D19 (a blind spot of 93, log 16), that latches may be merged is D28 (log 16). -/
def Obligations.TheWaitFreezesTheMachine : Prop :=
  ∀ (a : Transaction) (s : State), s.Inv → s.waiting = true → (∀ k, a ≠ .deliverKey k) →
    { (transact a s).state with keys := s.keys } = s ∧
    ((∀ p, a ≠ .mergeKeyState p) → (transact a s).state = s)

/-- R35, R249: after a fatal error no transaction changes anything but the latches, so the record stays for good (D15, log 1). That
`load` (R111) and `deliver_key` (R113) are rejected there with no state change is the spec's own choice (D19, a blind spot of 93, and D12, log 16); that
latches may still be merged is D28 (log 16). -/
def Obligations.FaultedIsForGood : Prop :=
  ∀ (a : Transaction) (s : State) (e : ErrorRecord), s.Inv → s.status = .faulted e →
    { (transact a s).state with keys := s.keys } = s

/-- R117, R131: from a normal end whose `pc` may be fetched, the step completes, the run is at the same normal end again, and nothing but `Redraw`, `Tone` and the
timers may have changed. What an end is is the spec's own choice (D29, log 24). -/
def Obligations.NormalEndIsIdle : Prop :=
  ∀ s : State, s.endedNormally → s.fetchable →
    ∃ t, step s = .next t ∧ t.endedNormally ∧ OnlyChanges [.redraw, .tone, .dt, .st] s t
end

