-- ==== Sys2Proof/Laws/Decode.lean ====
section
/-!
SUPPORT. The fields of an encoded word, a word rebuilt from its fields, and the two bytes of a word.
-/

namespace Sys2Proof

/-! Words and fields as numbers. -/

/-- A concatenation as a number (00_scope.md R10). -/
theorem toNat_append_add {m k : Nat} (a : BitVec m) (b : BitVec k) : (a ++ b).toNat = a.toNat * 2 ^ k + b.toNat := by
  rw [BitVec.toNat_append, ← Nat.shiftLeft_add_eq_or_of_lt b.isLt, Nat.shiftLeft_eq]

theorem toNat_wordFA (op : Nibble) (nnn : Addr12) : (wordFA op nnn).toNat = op.toNat * 4096 + nnn.toNat :=
  toNat_append_add op nnn

theorem toNat_wordFXN (op x : Nibble) (nn : Byte) :
    (wordFXN op x nn).toNat = op.toNat * 4096 + x.toNat * 256 + nn.toNat := by
  have h := toNat_append_add (op ++ x) nn
  rw [toNat_append_add op x] at h
  exact h.trans (by omega)

theorem toNat_wordFXY (op x y n : Nibble) :
    (wordFXY op x y n).toNat = op.toNat * 4096 + x.toNat * 256 + y.toNat * 16 + n.toNat := by
  have h := toNat_append_add (op ++ x ++ y) n
  rw [toNat_append_add (op ++ x) y, toNat_append_add op x] at h
  exact h.trans (by omega)

theorem toNat_wordOfBytes (hi lo : Byte) : (wordOfBytes hi lo).toNat = hi.toNat * 256 + lo.toNat :=
  toNat_append_add hi lo

theorem toNat_opField (w : Word) : (opField w).toNat = w.toNat / 4096 % 16 := by
  simp [opField, BitVec.extractLsb'_toNat, Nat.shiftRight_eq_div_pow]
theorem toNat_xField (w : Word) : (xField w).toNat = w.toNat / 256 % 16 := by
  simp [xField, BitVec.extractLsb'_toNat, Nat.shiftRight_eq_div_pow]
theorem toNat_yField (w : Word) : (yField w).toNat = w.toNat / 16 % 16 := by
  simp [yField, BitVec.extractLsb'_toNat, Nat.shiftRight_eq_div_pow]
theorem toNat_nField (w : Word) : (nField w).toNat = w.toNat % 16 := by
  simp [nField, BitVec.extractLsb'_toNat]
theorem toNat_nnField (w : Word) : (nnField w).toNat = w.toNat % 256 := by
  simp [nnField, BitVec.extractLsb'_toNat]
theorem toNat_nnnField (w : Word) : (nnnField w).toNat = w.toNat % 4096 := by
  simp [nnnField, BitVec.extractLsb'_toNat]
theorem toNat_highByte (w : Word) : (highByte w).toNat = w.toNat / 256 % 256 := by
  simp [highByte, BitVec.extractLsb'_toNat, Nat.shiftRight_eq_div_pow]
theorem toNat_lowByte (w : Word) : (lowByte w).toNat = w.toNat % 256 := by
  simp [lowByte, BitVec.extractLsb'_toNat]

/-! The fields of each format. -/

@[simp] theorem opField_wordFA (op : Nibble) (nnn : Addr12) : opField (wordFA op nnn) = op :=
  BitVec.eq_of_toNat_eq (by rw [toNat_opField, toNat_wordFA]; omega)

@[simp] theorem nnnField_wordFA (op : Nibble) (nnn : Addr12) : nnnField (wordFA op nnn) = nnn :=
  BitVec.eq_of_toNat_eq (by rw [toNat_nnnField, toNat_wordFA]; omega)

@[simp] theorem opField_wordFXN (op x : Nibble) (nn : Byte) : opField (wordFXN op x nn) = op :=
  BitVec.eq_of_toNat_eq (by rw [toNat_opField, toNat_wordFXN]; omega)

@[simp] theorem xField_wordFXN (op x : Nibble) (nn : Byte) : xField (wordFXN op x nn) = x :=
  BitVec.eq_of_toNat_eq (by rw [toNat_xField, toNat_wordFXN]; omega)

@[simp] theorem nnField_wordFXN (op x : Nibble) (nn : Byte) : nnField (wordFXN op x nn) = nn :=
  BitVec.eq_of_toNat_eq (by rw [toNat_nnField, toNat_wordFXN]; omega)

@[simp] theorem opField_wordFXY (op x y n : Nibble) : opField (wordFXY op x y n) = op :=
  BitVec.eq_of_toNat_eq (by rw [toNat_opField, toNat_wordFXY]; omega)

@[simp] theorem xField_wordFXY (op x y n : Nibble) : xField (wordFXY op x y n) = x :=
  BitVec.eq_of_toNat_eq (by rw [toNat_xField, toNat_wordFXY]; omega)

@[simp] theorem yField_wordFXY (op x y n : Nibble) : yField (wordFXY op x y n) = y :=
  BitVec.eq_of_toNat_eq (by rw [toNat_yField, toNat_wordFXY]; omega)

@[simp] theorem nField_wordFXY (op x y n : Nibble) : nField (wordFXY op x y n) = n :=
  BitVec.eq_of_toNat_eq (by rw [toNat_nField, toNat_wordFXY]; omega)

/-! A word is its fields put together. -/

theorem wordFA_fields (w : Word) : wordFA (opField w) (nnnField w) = w :=
  BitVec.eq_of_toNat_eq (by rw [toNat_wordFA, toNat_opField, toNat_nnnField]; omega)

theorem wordFXN_fields (w : Word) : wordFXN (opField w) (xField w) (nnField w) = w :=
  BitVec.eq_of_toNat_eq (by rw [toNat_wordFXN, toNat_opField, toNat_xField, toNat_nnField]; omega)

theorem wordFXY_fields (w : Word) : wordFXY (opField w) (xField w) (yField w) (nField w) = w :=
  BitVec.eq_of_toNat_eq (by rw [toNat_wordFXY, toNat_opField, toNat_xField, toNat_yField, toNat_nField]; omega)

/-! The bytes of a word. -/

@[simp] theorem wordOfBytes_bytes (w : Word) : wordOfBytes (highByte w) (lowByte w) = w :=
  BitVec.eq_of_toNat_eq (by rw [toNat_wordOfBytes, toNat_highByte, toNat_lowByte]; omega)

@[simp] theorem highByte_wordOfBytes (hi lo : Byte) : highByte (wordOfBytes hi lo) = hi :=
  BitVec.eq_of_toNat_eq (by rw [toNat_highByte, toNat_wordOfBytes]; omega)

@[simp] theorem lowByte_wordOfBytes (hi lo : Byte) : lowByte (wordOfBytes hi lo) = lo :=
  BitVec.eq_of_toNat_eq (by rw [toNat_lowByte, toNat_wordOfBytes]; omega)

/-- The decoder reads a word from its two bytes and leaves the rest. -/
theorem decodeBytes_cons (hi lo : Byte) (rest : List Byte) :
    decodeBytes (hi :: lo :: rest) = (decode (wordOfBytes hi lo)).map (fun i => (i, rest)) := by
  simp only [decodeBytes]
  cases decode (wordOfBytes hi lo) <;> rfl

/-- A table word is read by the word decoder. -/
theorem decodeTableWord_eq (nbits w : Nat) :
    decodeTableWord nbits w = (decode (tableWord nbits w)).toOption := by
  unfold decodeTableWord
  rw [decodeBytes_cons, wordOfBytes_bytes]
  cases decode (tableWord nbits w) <;> rfl

end Sys2Proof
end

