-- ==== Sys2Proof/Laws/Memory.lean ====
section
/-!
SUPPORT. The laws of memory: a read after a write, that every operation keeps the canonical form, and
blocks.
-/

namespace Sys2Proof.Machine

theorem Memory.read_insert (m : Memory) (a b' : Nat) (b : Byte) :
    Memory.read (Memory.insert m a b) b' = if b' = a then b else Memory.read m b' := by
  induction m with
  | nil => simp [Memory.insert, Memory.read, eq_comm]
  | cons c m ih =>
    obtain ⟨k, c⟩ := c
    simp only [Memory.insert]
    split
    · simp only [Memory.read, eq_comm]
    · split
      · subst k; simp only [Memory.read, eq_comm]; split <;> simp_all
      · simp only [Memory.read, ih]; grind

theorem Memory.read_erase (m : Memory) (a b' : Nat) :
    Memory.read (Memory.erase m a) b' = if b' = a then Memory.resetByte a else Memory.read m b' := by
  induction m with
  | nil => simp [Memory.erase, Memory.read]; rintro rfl; rfl
  | cons c m ih =>
    obtain ⟨k, c⟩ := c
    simp only [Memory.erase, List.filter_cons] at ih ⊢
    by_cases h : k = a
    · subst h; simp [Memory.read, ih]; grind
    · simp [h, Memory.read, ih]; grind

/-- A read after a write: the byte written at its address, what was there elsewhere. -/
theorem Memory.read_write (m : Memory) (a b' : Nat) (b : Byte) :
    Memory.read (Memory.write m a b) b' = if b' = a then b else Memory.read m b' := by
  unfold Memory.write
  split
  · rw [Memory.read_erase]; simp_all
  · exact Memory.read_insert m a b' b

theorem Memory.mem_insert {m : Memory} {a : Nat} {b : Byte} {c : Host.Cell} (h : c ∈ Memory.insert m a b) :
    c = (a, b) ∨ c ∈ m := by
  induction m with
  | nil => simpa [Memory.insert] using h
  | cons d m ih =>
    simp only [Memory.insert] at h
    split at h
    · simpa using h
    · split at h
      · simp only [List.mem_cons] at h ⊢; tauto
      · simp only [List.mem_cons] at h ⊢; rcases h with h | h
        · tauto
        · rcases ih h with h | h <;> tauto

theorem Memory.insert_pairwise {m : Memory} (a : Nat) (b : Byte)
    (h : List.Pairwise (fun c d : Host.Cell => c.1 < d.1) m) :
    List.Pairwise (fun c d : Host.Cell => c.1 < d.1) (Memory.insert m a b) := by
  induction m with
  | nil => simp [Memory.insert]
  | cons d m ih =>
    obtain ⟨k, v⟩ := d
    rw [List.pairwise_cons] at h
    simp only [Memory.insert]
    split
    case isTrue hk =>
      refine List.pairwise_cons.2 ⟨fun c hc => ?_, List.pairwise_cons.2 h⟩
      rcases List.mem_cons.1 hc with rfl | hc
      · exact hk
      · exact Nat.lt_trans hk (h.1 c hc)
    case isFalse hk =>
      split
      case isTrue hka => subst hka; exact List.pairwise_cons.2 h
      case isFalse hka =>
        refine List.pairwise_cons.2 ⟨fun c hc => ?_, ih h.2⟩
        rcases Memory.mem_insert hc with rfl | hc
        · show k < a; omega
        · exact h.1 c hc

/-- A write inside the 4096 bytes keeps the canonical form. -/
theorem Memory.write_wf {m : Memory} {a : Nat} (b : Byte) (ha : a < Config.memSize) (h : Memory.wf m) :
    Memory.wf (Memory.write m a b) := by
  unfold Memory.write
  split
  · exact ⟨h.1.filter _, fun c hc => h.2 c (List.mem_of_mem_filter hc)⟩
  case isFalse hb =>
    refine ⟨Memory.insert_pairwise a b h.1, fun c hc => ?_⟩
    rcases Memory.mem_insert hc with rfl | hc
    · exact ⟨ha, hb⟩
    · exact h.2 c hc

/-- A block of writes inside the 4096 bytes keeps the canonical form. -/
theorem Memory.writeBlock_wf {m : Memory} {a : Nat} (bs : List Byte) (ha : a + bs.length ≤ Config.memSize)
    (h : Memory.wf m) : Memory.wf (Memory.writeBlock m a bs) := by
  induction bs generalizing m a with
  | nil => exact h
  | cons b bs ih =>
    simp only [List.length_cons] at ha
    exact ih (by omega) (Memory.write_wf b (by omega) h)

/-- A read after a block of writes: inside the block the byte of its place, elsewhere what was there. -/
theorem Memory.read_writeBlock (m : Memory) (a b' : Nat) (bs : List Byte) :
    Memory.read (Memory.writeBlock m a bs) b' =
      if a ≤ b' then (bs[b' - a]?).getD (Memory.read m b') else Memory.read m b' := by
  induction bs generalizing m a with
  | nil => simp [Memory.writeBlock]
  | cons b bs ih =>
    rw [Memory.writeBlock, ih, Memory.read_write]
    by_cases h1 : b' = a
    · subst h1; simp
    · by_cases h2 : a ≤ b'
      · have h3 : a + 1 ≤ b' := by omega
        have h4 : b' - a = (b' - (a + 1)) + 1 := by omega
        simp [h1, h2, h3, h4]
      · have h3 : ¬a + 1 ≤ b' := by omega
        simp [h1, h2, h3]

/-- Outside the block nothing changes. -/
theorem Memory.read_writeBlock_outside {m : Memory} {a b' : Nat} {bs : List Byte} (h : b' < a ∨ a + bs.length ≤ b') :
    Memory.read (Memory.writeBlock m a bs) b' = Memory.read m b' := by
  rw [Memory.read_writeBlock]
  split
  · rw [List.getElem?_eq_none (by omega)]; rfl
  · rfl

/-- Inside the block stands the byte of that place. -/
theorem Memory.read_writeBlock_inside {m : Memory} {a k : Nat} {bs : List Byte} (h : k < bs.length) :
    Memory.read (Memory.writeBlock m a bs) (a + k) = bs[k] := by
  rw [Memory.read_writeBlock]
  simp [h]

@[simp] theorem Memory.length_readBlock (m : Memory) (a n : Nat) : (Memory.readBlock m a n).length = n := by
  simp [Memory.readBlock]

@[simp] theorem Memory.getElem_readBlock (m : Memory) (a n k : Nat) (h : k < (Memory.readBlock m a n).length) :
    (Memory.readBlock m a n)[k] = Memory.read m (a + k) := by
  simp [Memory.readBlock]

/-- The empty memory is in canonical form. -/
theorem Memory.wf_nil : Memory.wf [] := by simp [Memory.wf]

/-- The range check on a block with a byte out of range: the first such address. -/
theorem outOfRange_some {start count : Nat} (h : 0 < count ∧ 4096 < start + count) :
    outOfRange start count = some (max start 4096) := by
  unfold outOfRange Config.memSize
  rw [if_pos ⟨h.1, by omega⟩]

/-- The range check on a block inside memory, or on no bytes. -/
theorem outOfRange_none {start count : Nat} (h : ¬(0 < count ∧ 4096 < start + count)) :
    outOfRange start count = none := by
  unfold outOfRange Config.memSize
  rw [if_neg (by omega)]

end Sys2Proof.Machine
end

