-- ==== Sys2Proof/Laws/State.lean ====
section
/-!
SUPPORT. What each update of State leaves in each field, so that no later proof unfolds a record update: one lemma per field and update.
-/

namespace Sys2Proof.Machine

/-! A write to a general register. -/

@[simp] theorem State.setReg_mem (s : State) (x : Nibble) (b : Byte) : (s.setReg x b).mem = s.mem := rfl
@[simp] theorem State.setReg_v (s : State) (x : Nibble) (b : Byte) : (s.setReg x b).v = s.v.set x.toNat b x.isLt := rfl
@[simp] theorem State.setReg_pc (s : State) (x : Nibble) (b : Byte) : (s.setReg x b).pc = s.pc := rfl
@[simp] theorem State.setReg_I (s : State) (x : Nibble) (b : Byte) : (s.setReg x b).I = s.I := rfl
@[simp] theorem State.setReg_stack (s : State) (x : Nibble) (b : Byte) : (s.setReg x b).stack = s.stack := rfl
@[simp] theorem State.setReg_sp (s : State) (x : Nibble) (b : Byte) : (s.setReg x b).sp = s.sp := rfl
@[simp] theorem State.setReg_dt (s : State) (x : Nibble) (b : Byte) : (s.setReg x b).dt = s.dt := rfl
@[simp] theorem State.setReg_st (s : State) (x : Nibble) (b : Byte) : (s.setReg x b).st = s.st := rfl
@[simp] theorem State.setReg_keys (s : State) (x : Nibble) (b : Byte) : (s.setReg x b).keys = s.keys := rfl
@[simp] theorem State.setReg_disp (s : State) (x : Nibble) (b : Byte) : (s.setReg x b).disp = s.disp := rfl
@[simp] theorem State.setReg_redraw (s : State) (x : Nibble) (b : Byte) : (s.setReg x b).redraw = s.redraw := rfl
@[simp] theorem State.setReg_tone (s : State) (x : Nibble) (b : Byte) : (s.setReg x b).tone = s.tone := rfl
@[simp] theorem State.setReg_waiting (s : State) (x : Nibble) (b : Byte) : (s.setReg x b).waiting = s.waiting := rfl
@[simp] theorem State.setReg_waitReg (s : State) (x : Nibble) (b : Byte) : (s.setReg x b).waitReg = s.waitReg := rfl
@[simp] theorem State.setReg_status (s : State) (x : Nibble) (b : Byte) : (s.setReg x b).status = s.status := rfl
@[simp] theorem State.setReg_policies (s : State) (x : Nibble) (b : Byte) : (s.setReg x b).policies = s.policies := rfl
@[simp] theorem State.setReg_draws (s : State) (x : Nibble) (b : Byte) : (s.setReg x b).draws = s.draws := rfl

/-! A write to `I`. -/

@[simp] theorem State.setI_mem (s : State) (a : Word) : (s.setI a).mem = s.mem := rfl
@[simp] theorem State.setI_v (s : State) (a : Word) : (s.setI a).v = s.v := rfl
@[simp] theorem State.setI_pc (s : State) (a : Word) : (s.setI a).pc = s.pc := rfl
@[simp] theorem State.setI_I (s : State) (a : Word) : (s.setI a).I = a := rfl
@[simp] theorem State.setI_stack (s : State) (a : Word) : (s.setI a).stack = s.stack := rfl
@[simp] theorem State.setI_sp (s : State) (a : Word) : (s.setI a).sp = s.sp := rfl
@[simp] theorem State.setI_dt (s : State) (a : Word) : (s.setI a).dt = s.dt := rfl
@[simp] theorem State.setI_st (s : State) (a : Word) : (s.setI a).st = s.st := rfl
@[simp] theorem State.setI_keys (s : State) (a : Word) : (s.setI a).keys = s.keys := rfl
@[simp] theorem State.setI_disp (s : State) (a : Word) : (s.setI a).disp = s.disp := rfl
@[simp] theorem State.setI_redraw (s : State) (a : Word) : (s.setI a).redraw = s.redraw := rfl
@[simp] theorem State.setI_tone (s : State) (a : Word) : (s.setI a).tone = s.tone := rfl
@[simp] theorem State.setI_waiting (s : State) (a : Word) : (s.setI a).waiting = s.waiting := rfl
@[simp] theorem State.setI_waitReg (s : State) (a : Word) : (s.setI a).waitReg = s.waitReg := rfl
@[simp] theorem State.setI_status (s : State) (a : Word) : (s.setI a).status = s.status := rfl
@[simp] theorem State.setI_policies (s : State) (a : Word) : (s.setI a).policies = s.policies := rfl
@[simp] theorem State.setI_draws (s : State) (a : Word) : (s.setI a).draws = s.draws := rfl

/-! A write to `pc`. -/

@[simp] theorem State.setPc_mem (s : State) (a : Word) : (s.setPc a).mem = s.mem := rfl
@[simp] theorem State.setPc_v (s : State) (a : Word) : (s.setPc a).v = s.v := rfl
@[simp] theorem State.setPc_pc (s : State) (a : Word) : (s.setPc a).pc = a := rfl
@[simp] theorem State.setPc_I (s : State) (a : Word) : (s.setPc a).I = s.I := rfl
@[simp] theorem State.setPc_stack (s : State) (a : Word) : (s.setPc a).stack = s.stack := rfl
@[simp] theorem State.setPc_sp (s : State) (a : Word) : (s.setPc a).sp = s.sp := rfl
@[simp] theorem State.setPc_dt (s : State) (a : Word) : (s.setPc a).dt = s.dt := rfl
@[simp] theorem State.setPc_st (s : State) (a : Word) : (s.setPc a).st = s.st := rfl
@[simp] theorem State.setPc_keys (s : State) (a : Word) : (s.setPc a).keys = s.keys := rfl
@[simp] theorem State.setPc_disp (s : State) (a : Word) : (s.setPc a).disp = s.disp := rfl
@[simp] theorem State.setPc_redraw (s : State) (a : Word) : (s.setPc a).redraw = s.redraw := rfl
@[simp] theorem State.setPc_tone (s : State) (a : Word) : (s.setPc a).tone = s.tone := rfl
@[simp] theorem State.setPc_waiting (s : State) (a : Word) : (s.setPc a).waiting = s.waiting := rfl
@[simp] theorem State.setPc_waitReg (s : State) (a : Word) : (s.setPc a).waitReg = s.waitReg := rfl
@[simp] theorem State.setPc_status (s : State) (a : Word) : (s.setPc a).status = s.status := rfl
@[simp] theorem State.setPc_policies (s : State) (a : Word) : (s.setPc a).policies = s.policies := rfl
@[simp] theorem State.setPc_draws (s : State) (a : Word) : (s.setPc a).draws = s.draws := rfl

/-! A clear of a latch. -/

@[simp] theorem State.clearKey_mem (s : State) (k : Fin 16) : (s.clearKey k).mem = s.mem := rfl
@[simp] theorem State.clearKey_v (s : State) (k : Fin 16) : (s.clearKey k).v = s.v := rfl
@[simp] theorem State.clearKey_pc (s : State) (k : Fin 16) : (s.clearKey k).pc = s.pc := rfl
@[simp] theorem State.clearKey_I (s : State) (k : Fin 16) : (s.clearKey k).I = s.I := rfl
@[simp] theorem State.clearKey_stack (s : State) (k : Fin 16) : (s.clearKey k).stack = s.stack := rfl
@[simp] theorem State.clearKey_sp (s : State) (k : Fin 16) : (s.clearKey k).sp = s.sp := rfl
@[simp] theorem State.clearKey_dt (s : State) (k : Fin 16) : (s.clearKey k).dt = s.dt := rfl
@[simp] theorem State.clearKey_st (s : State) (k : Fin 16) : (s.clearKey k).st = s.st := rfl
@[simp] theorem State.clearKey_keys (s : State) (k : Fin 16) : (s.clearKey k).keys = s.keys.set k false := rfl
@[simp] theorem State.clearKey_disp (s : State) (k : Fin 16) : (s.clearKey k).disp = s.disp := rfl
@[simp] theorem State.clearKey_redraw (s : State) (k : Fin 16) : (s.clearKey k).redraw = s.redraw := rfl
@[simp] theorem State.clearKey_tone (s : State) (k : Fin 16) : (s.clearKey k).tone = s.tone := rfl
@[simp] theorem State.clearKey_waiting (s : State) (k : Fin 16) : (s.clearKey k).waiting = s.waiting := rfl
@[simp] theorem State.clearKey_waitReg (s : State) (k : Fin 16) : (s.clearKey k).waitReg = s.waitReg := rfl
@[simp] theorem State.clearKey_status (s : State) (k : Fin 16) : (s.clearKey k).status = s.status := rfl
@[simp] theorem State.clearKey_policies (s : State) (k : Fin 16) : (s.clearKey k).policies = s.policies := rfl
@[simp] theorem State.clearKey_draws (s : State) (k : Fin 16) : (s.clearKey k).draws = s.draws := rfl

/-! A fatal error. -/

@[simp] theorem State.raise_mem (s : State) (e : ErrorKind) (a : Word) (w : Option Word) (d : Option Nat) : (s.raise e a w d).mem = s.mem := rfl
@[simp] theorem State.raise_v (s : State) (e : ErrorKind) (a : Word) (w : Option Word) (d : Option Nat) : (s.raise e a w d).v = s.v := rfl
@[simp] theorem State.raise_pc (s : State) (e : ErrorKind) (a : Word) (w : Option Word) (d : Option Nat) : (s.raise e a w d).pc = s.pc := rfl
@[simp] theorem State.raise_I (s : State) (e : ErrorKind) (a : Word) (w : Option Word) (d : Option Nat) : (s.raise e a w d).I = s.I := rfl
@[simp] theorem State.raise_stack (s : State) (e : ErrorKind) (a : Word) (w : Option Word) (d : Option Nat) : (s.raise e a w d).stack = s.stack := rfl
@[simp] theorem State.raise_sp (s : State) (e : ErrorKind) (a : Word) (w : Option Word) (d : Option Nat) : (s.raise e a w d).sp = s.sp := rfl
@[simp] theorem State.raise_dt (s : State) (e : ErrorKind) (a : Word) (w : Option Word) (d : Option Nat) : (s.raise e a w d).dt = s.dt := rfl
@[simp] theorem State.raise_st (s : State) (e : ErrorKind) (a : Word) (w : Option Word) (d : Option Nat) : (s.raise e a w d).st = s.st := rfl
@[simp] theorem State.raise_keys (s : State) (e : ErrorKind) (a : Word) (w : Option Word) (d : Option Nat) : (s.raise e a w d).keys = s.keys := rfl
@[simp] theorem State.raise_disp (s : State) (e : ErrorKind) (a : Word) (w : Option Word) (d : Option Nat) : (s.raise e a w d).disp = s.disp := rfl
@[simp] theorem State.raise_redraw (s : State) (e : ErrorKind) (a : Word) (w : Option Word) (d : Option Nat) : (s.raise e a w d).redraw = s.redraw := rfl
@[simp] theorem State.raise_tone (s : State) (e : ErrorKind) (a : Word) (w : Option Word) (d : Option Nat) : (s.raise e a w d).tone = s.tone := rfl
@[simp] theorem State.raise_waiting (s : State) (e : ErrorKind) (a : Word) (w : Option Word) (d : Option Nat) : (s.raise e a w d).waiting = s.waiting := rfl
@[simp] theorem State.raise_waitReg (s : State) (e : ErrorKind) (a : Word) (w : Option Word) (d : Option Nat) : (s.raise e a w d).waitReg = s.waitReg := rfl
@[simp] theorem State.raise_status (s : State) (e : ErrorKind) (a : Word) (w : Option Word) (d : Option Nat) : (s.raise e a w d).status = .faulted ⟨e, a, w, d⟩ := rfl
@[simp] theorem State.raise_policies (s : State) (e : ErrorKind) (a : Word) (w : Option Word) (d : Option Nat) : (s.raise e a w d).policies = s.policies := rfl
@[simp] theorem State.raise_draws (s : State) (e : ErrorKind) (a : Word) (w : Option Word) (d : Option Nat) : (s.raise e a w d).draws = s.draws := rfl

/-! A start of a step. -/

@[simp] theorem State.beginStep_mem (s : State) : (s.beginStep).mem = s.mem := rfl
@[simp] theorem State.beginStep_v (s : State) : (s.beginStep).v = s.v := rfl
@[simp] theorem State.beginStep_pc (s : State) : (s.beginStep).pc = s.pc := rfl
@[simp] theorem State.beginStep_I (s : State) : (s.beginStep).I = s.I := rfl
@[simp] theorem State.beginStep_stack (s : State) : (s.beginStep).stack = s.stack := rfl
@[simp] theorem State.beginStep_sp (s : State) : (s.beginStep).sp = s.sp := rfl
@[simp] theorem State.beginStep_dt (s : State) : (s.beginStep).dt = s.dt := rfl
@[simp] theorem State.beginStep_st (s : State) : (s.beginStep).st = s.st := rfl
@[simp] theorem State.beginStep_keys (s : State) : (s.beginStep).keys = s.keys := rfl
@[simp] theorem State.beginStep_disp (s : State) : (s.beginStep).disp = s.disp := rfl
@[simp] theorem State.beginStep_redraw (s : State) : (s.beginStep).redraw = false := rfl
@[simp] theorem State.beginStep_tone (s : State) : (s.beginStep).tone = s.tone := rfl
@[simp] theorem State.beginStep_waiting (s : State) : (s.beginStep).waiting = s.waiting := rfl
@[simp] theorem State.beginStep_waitReg (s : State) : (s.beginStep).waitReg = s.waitReg := rfl
@[simp] theorem State.beginStep_status (s : State) : (s.beginStep).status = .running := rfl
@[simp] theorem State.beginStep_policies (s : State) : (s.beginStep).policies = s.policies := rfl
@[simp] theorem State.beginStep_draws (s : State) : (s.beginStep).draws = s.draws := rfl

/-! The advance of the fetch. -/

@[simp] theorem State.advance_mem (s : State) : (s.advance).mem = s.mem := rfl
@[simp] theorem State.advance_v (s : State) : (s.advance).v = s.v := rfl
@[simp] theorem State.advance_pc (s : State) : (s.advance).pc = s.pc + 2 := rfl
@[simp] theorem State.advance_I (s : State) : (s.advance).I = s.I := rfl
@[simp] theorem State.advance_stack (s : State) : (s.advance).stack = s.stack := rfl
@[simp] theorem State.advance_sp (s : State) : (s.advance).sp = s.sp := rfl
@[simp] theorem State.advance_dt (s : State) : (s.advance).dt = s.dt := rfl
@[simp] theorem State.advance_st (s : State) : (s.advance).st = s.st := rfl
@[simp] theorem State.advance_keys (s : State) : (s.advance).keys = s.keys := rfl
@[simp] theorem State.advance_disp (s : State) : (s.advance).disp = s.disp := rfl
@[simp] theorem State.advance_redraw (s : State) : (s.advance).redraw = s.redraw := rfl
@[simp] theorem State.advance_tone (s : State) : (s.advance).tone = s.tone := rfl
@[simp] theorem State.advance_waiting (s : State) : (s.advance).waiting = s.waiting := rfl
@[simp] theorem State.advance_waitReg (s : State) : (s.advance).waitReg = s.waitReg := rfl
@[simp] theorem State.advance_status (s : State) : (s.advance).status = s.status := rfl
@[simp] theorem State.advance_policies (s : State) : (s.advance).policies = s.policies := rfl
@[simp] theorem State.advance_draws (s : State) : (s.advance).draws = s.draws := rfl

/-! The advance of `I` after a transfer. -/

@[simp] theorem State.advanceI_mem (s : State) (x : Nibble) : (s.advanceI x).mem = s.mem := rfl
@[simp] theorem State.advanceI_v (s : State) (x : Nibble) : (s.advanceI x).v = s.v := rfl
@[simp] theorem State.advanceI_pc (s : State) (x : Nibble) : (s.advanceI x).pc = s.pc := rfl
@[simp] theorem State.advanceI_I (s : State) (x : Nibble) : (s.advanceI x).I = s.I + x.setWidth 16 + 1 := rfl
@[simp] theorem State.advanceI_stack (s : State) (x : Nibble) : (s.advanceI x).stack = s.stack := rfl
@[simp] theorem State.advanceI_sp (s : State) (x : Nibble) : (s.advanceI x).sp = s.sp := rfl
@[simp] theorem State.advanceI_dt (s : State) (x : Nibble) : (s.advanceI x).dt = s.dt := rfl
@[simp] theorem State.advanceI_st (s : State) (x : Nibble) : (s.advanceI x).st = s.st := rfl
@[simp] theorem State.advanceI_keys (s : State) (x : Nibble) : (s.advanceI x).keys = s.keys := rfl
@[simp] theorem State.advanceI_disp (s : State) (x : Nibble) : (s.advanceI x).disp = s.disp := rfl
@[simp] theorem State.advanceI_redraw (s : State) (x : Nibble) : (s.advanceI x).redraw = s.redraw := rfl
@[simp] theorem State.advanceI_tone (s : State) (x : Nibble) : (s.advanceI x).tone = s.tone := rfl
@[simp] theorem State.advanceI_waiting (s : State) (x : Nibble) : (s.advanceI x).waiting = s.waiting := rfl
@[simp] theorem State.advanceI_waitReg (s : State) (x : Nibble) : (s.advanceI x).waitReg = s.waitReg := rfl
@[simp] theorem State.advanceI_status (s : State) (x : Nibble) : (s.advanceI x).status = s.status := rfl
@[simp] theorem State.advanceI_policies (s : State) (x : Nibble) : (s.advanceI x).policies = s.policies := rfl
@[simp] theorem State.advanceI_draws (s : State) (x : Nibble) : (s.advanceI x).draws = s.draws := rfl

/-! Registers through their accessors. -/

/-- A register read after a register write. -/
theorem State.reg_setReg (s : State) (x r : Nibble) (b : Byte) :
    (s.setReg x b).reg r = if r = x then b else s.reg r := by
  unfold State.reg State.setReg
  by_cases h : r = x
  · subst h; simp
  · have : x.toNat ≠ r.toNat := fun e => h (BitVec.eq_of_toNat_eq e.symm)
    simp [this, h]

@[simp] theorem State.reg_setReg_self (s : State) (x : Nibble) (b : Byte) : (s.setReg x b).reg x = b := by
  simp [State.reg_setReg]

theorem State.reg_setReg_ne (s : State) {x r : Nibble} (b : Byte) (h : r ≠ x) : (s.setReg x b).reg r = s.reg r := by
  simp [State.reg_setReg, h]

@[simp] theorem State.reg_setI (s : State) (a : Word) (r : Nibble) : (s.setI a).reg r = s.reg r := rfl
@[simp] theorem State.reg_setPc (s : State) (a : Word) (r : Nibble) : (s.setPc a).reg r = s.reg r := rfl
@[simp] theorem State.reg_clearKey (s : State) (k : Fin 16) (r : Nibble) : (s.clearKey k).reg r = s.reg r := rfl
@[simp] theorem State.reg_advanceI (s : State) (x r : Nibble) : (s.advanceI x).reg r = s.reg r := rfl

/-- A latch read after a latch is cleared. -/
theorem State.key_clearKey (s : State) (k j : Fin 16) : (s.clearKey k).key j = if j = k then false else s.key j := by
  unfold State.key State.clearKey
  by_cases h : j = k
  · subst h; simp
  · have : k.val ≠ j.val := fun e => h (Fin.ext e.symm)
    simp [this, h]

/-- A cell read after a cell is written. -/
theorem Display.get_put (d : Display) (c c' : Fin 64) (r r' : Fin 32) (b : Bool) :
    Display.get (Display.put d c r b) c' r' = if c' = c ∧ r' = r then b else Display.get d c' r' := by
  unfold Display.get Display.put
  by_cases hr : r' = r
  · subst hr
    by_cases hc : c' = c
    · subst hc; simp
    · have : c.val ≠ c'.val := fun e => hc (Fin.ext e.symm)
      simp [this, hc]
  · have : r.val ≠ r'.val := fun e => hr (Fin.ext e.symm)
    simp [this, hr]

/-- Every cell of the blank display is off. -/
@[simp] theorem Display.get_blank (c : Fin 64) (r : Fin 32) : Display.get Display.blank c r = false := by
  simp [Display.get, Display.blank]

end Sys2Proof.Machine
end

