-- ==== Sys2Proof/Laws/Ops.lean ====
section
/-!
SUPPORT. For each shared operation, once, everything it can do; later proofs cite these and unfold none of them.
-/

namespace Sys2Proof.Machine

/-! ### The return stack -/

/-- `Push` either stores above the entries in use or finds all 16 in use. -/
theorem State.push_cases (s : State) (v : Word) :
    (∃ h : s.sp.val < 16, s.push v =
      some { s with stack := s.stack.set s.sp.val v h, sp := ⟨s.sp.val + 1, by omega⟩ }) ∨
    (s.sp.val = 16 ∧ s.push v = none) := by
  unfold State.push
  split
  case isTrue h => exact .inl ⟨h, rfl⟩
  case isFalse h => exact .inr ⟨by omega, rfl⟩

/-- `Pop` either answers the top entry and forgets it, or finds none in use. -/
theorem State.pop_cases (s : State) :
    (∃ h : 0 < s.sp.val, s.pop =
      some (s.stack[s.sp.val - 1]'(by omega), { s with sp := ⟨s.sp.val - 1, by omega⟩ })) ∨
    (s.sp.val = 0 ∧ s.pop = none) := by
  unfold State.pop
  split
  case isTrue h => exact .inl ⟨h, rfl⟩
  case isFalse h => exact .inr ⟨by omega, rfl⟩

/-! ### Skips and keys -/

/-- A skip moves `pc` by 2 or leaves the state. -/
theorem State.skipIf_eq (s : State) (c : Bool) : s.skipIf c = s.setPc (if c then s.pc + 2 else s.pc) := by
  cases c <;> rfl

/-- A register names a key exactly when it holds at most 15. -/
theorem keyIndex_cases (b : Byte) :
    (∃ h : b.toNat < 16, keyIndex b = some ⟨b.toNat, h⟩) ∨ (15 < b.toNat ∧ keyIndex b = none) := by
  unfold keyIndex
  split
  case isTrue h => exact .inl ⟨h, rfl⟩
  case isFalse h => exact .inr ⟨by omega, rfl⟩

/-! ### Register runs -/

/-- The run `V[0..x]` has x + 1 bytes. -/
@[simp] theorem State.length_regsUpTo (s : State) (x : Nibble) : (s.regsUpTo x).length = x.toNat + 1 := by
  simp [State.regsUpTo]

/-- The k-th byte of the run is `V[k]`. -/
theorem State.getElem_regsUpTo (s : State) (x : Nibble) (k : Nat) (h : k < (s.regsUpTo x).length) :
    (s.regsUpTo x)[k] = s.reg (BitVec.ofNat 4 k) := by
  simp [State.regsUpTo]

/-- Writing a run of registers changes the register file alone. -/
theorem State.setRegsFrom_eq (s : State) (k : Nat) (bs : List Byte) :
    s.setRegsFrom k bs = { s with v := (s.setRegsFrom k bs).v } := by
  induction bs generalizing s k with
  | nil => rfl
  | cons b bs ih => simp only [State.setRegsFrom]; rw [ih]; rfl

/-- A register after a run is written from `V[k]` up: the byte of its place, or what it held. -/
theorem State.reg_setRegsFrom (s : State) (k : Nat) (bs : List Byte) (r : Nibble) (h : k + bs.length ≤ 16) :
    (s.setRegsFrom k bs).reg r = if k ≤ r.toNat then (bs[r.toNat - k]?).getD (s.reg r) else s.reg r := by
  induction bs generalizing s k with
  | nil => simp [State.setRegsFrom]
  | cons b bs ih =>
    simp only [List.length_cons] at h
    rw [State.setRegsFrom, ih _ _ (by omega), State.reg_setReg]
    have hk : (BitVec.ofNat 4 k).toNat = k := by simp; omega
    by_cases h1 : r = BitVec.ofNat 4 k
    · simp [h1, Nat.mod_eq_of_lt (show k < 16 by omega)]
    · have h2 : r.toNat ≠ k := fun e => h1 (BitVec.eq_of_toNat_eq (by rw [hk, e]))
      by_cases h3 : k ≤ r.toNat
      · have h4 : k + 1 ≤ r.toNat := by omega
        have h5 : r.toNat - k = (r.toNat - (k + 1)) + 1 := by omega
        simp [h1, h3, h4, h5]
      · have h4 : ¬k + 1 ≤ r.toNat := by omega
        simp [h1, h3, h4]

/-! ### Fetch and the timers -/

/-- Fetch answers the word at `pc`, or the address it could not read. -/
theorem State.fetch_eq (s : State) :
    s.fetch =
      if s.policies.oddPc = .fault ∧ s.pc.toNat % 2 = 1 then .error s.pc.toNat
      else if 0xFFF ≤ s.pc.toNat then .error (max s.pc.toNat 4096)
      else .ok (wordOfBytes (Memory.read s.mem s.pc.toNat) (Memory.read s.mem (s.pc.toNat + 1))) := by
  unfold State.fetch State.memRead Config.memSize
  split
  · rfl
  · by_cases h1 : 4096 ≤ s.pc.toNat
    · simp [h1, show 4095 ≤ s.pc.toNat by omega]
    · by_cases h2 : 4096 ≤ s.pc.toNat + 1
      · have : s.pc.toNat = 4095 := by omega
        simp [this]
      · simp [h1, h2, show s.pc.toNat < 4095 by omega]

/-- The tick counts both timers down, holding at zero, sets `Tone` by the sound timer alone, and touches nothing else. -/
theorem State.timerTick_eq (s : State) :
    s.timerTick = { s with
      dt := if s.dt = 0 then 0 else s.dt - 1, st := if s.st = 0 then 0 else s.st - 1, tone := decide (s.st = 1) } := by
  unfold State.timerTick State.tickSound State.tickDelay
  have hone : ∀ b : Byte, b - 1 = 0 ↔ b = 1 := by decide
  by_cases hd : s.dt = 0 <;> by_cases hs : s.st = 0 <;> simp only [hd, hs, if_true, if_false, hone] <;> (cases s; simp_all)

/-- The tick changes nothing a fetch reads. -/
@[simp] theorem State.timerTick_fetch (s : State) : s.timerTick.fetch = s.fetch := by
  rw [State.timerTick_eq]; rfl

/-- The end of a step on a next state. -/
@[simp] theorem finishStep_next (s : State) :
    finishStep (.next s) = .next (if s.status.isFaulted then s else s.timerTick) := rfl

/-- A status is faulted exactly when it holds a record. -/
theorem Status.isFaulted_iff (s : Status) : s.isFaulted = true ↔ ∃ e, s = .faulted e := by
  cases s <;> simp [Status.isFaulted]

/-- The word placed for the next fetch is what that fetch reads, where it can read. -/
theorem State.fetch_placeWord (s : State) (w : Word) (h : s.pc.toNat + 1 < Config.memSize)
    (hp : ¬(s.policies.oddPc = .fault ∧ s.pc.toNat % 2 = 1)) : (s.placeWord w).fetch = .ok w := by
  unfold State.placeWord
  rw [if_pos h, State.fetch_eq]
  unfold Config.memSize at h
  rw [if_neg hp, if_neg (show ¬0xFFF ≤ s.pc.toNat by omega)]
  have h0 := Memory.read_writeBlock_inside (m := s.mem) (a := s.pc.toNat) (k := 0) (bs := [highByte w, lowByte w]) (by simp)
  have h1 := Memory.read_writeBlock_inside (m := s.mem) (a := s.pc.toNat) (k := 1) (bs := [highByte w, lowByte w]) (by simp)
  simp only [Nat.add_zero] at h0
  simp [h0, h1]

end Sys2Proof.Machine
end

