-- ==== Sys2Proof/Laws/Display.lean ====
section
/-!
SUPPORT. The sprite engine: where `place` puts a pixel, and what one pixel does to a canvas.
-/

namespace Sys2Proof.Machine

/-- `place` answers the cell R202's arithmetic names, under each policy. -/
theorem place_eq_iff (wrap : Config.WrapPolicy) (px py : Nat) (col : Fin 64) (row : Fin 32) :
    place wrap px py = (col, row) ↔ PixelLands wrap px py col row := by
  cases wrap <;> simp only [place, PixelLands, Prod.mk.injEq, Fin.ext_iff, Fin.val_ofNat]
  omega

/-- A pixel inverts its cell where its bit is 1, and no other cell. -/
theorem get_plotPixel (wrap : Config.WrapPolicy) (px py : Nat) (bit : Bool) (c : Canvas) (col : Fin 64) (row : Fin 32) :
    Display.get (plotPixel wrap px py bit c).cells col row =
      if bit = true ∧ place wrap px py = (col, row) then !Display.get c.cells col row
      else Display.get c.cells col row := by
  unfold plotPixel
  cases bit
  · simp
  · simp only [if_true, Display.get_put, Prod.ext_iff]
    split <;> split <;> simp_all

/-- A pixel collides where its bit is 1 and its cell was on. -/
theorem collided_plotPixel (wrap : Config.WrapPolicy) (px py : Nat) (bit : Bool) (c : Canvas) :
    (plotPixel wrap px py bit c).collided =
      (c.collided || bit && Display.get c.cells (place wrap px py).1 (place wrap px py).2) := by
  unfold plotPixel
  cases bit <;> simp

end Sys2Proof.Machine
end

