-- ==== Sys2Proof/Laws/PerInstr.lean ====
section
/-!
SUPPORT. Per instruction: its operands fit their fields, and its word has the fixed bits of its row of spec/opcode_table.json.
-/

namespace Sys2Proof.Laws.FitsTable

/-- The instruction is well formed and its word belongs to its row of the table. -/
def Statement (i : Instr) : Prop := i.wellFormed = true ∧ i.row.accepts (encode i) = true

/-- The types of Syntax carry well-formedness. -/
theorem wellFormed_all (i : Instr) : i.wellFormed = true := by
  have h4 : ∀ x : Nibble, x.toNat < 2 ^ 4 := fun x => x.isLt
  have h8 : ∀ x : Byte, x.toNat < 2 ^ 8 := fun x => x.isLt
  have h12 : ∀ x : Addr12, x.toNat < 2 ^ 12 := fun x => x.isLt
  cases i <;> simp only [Instr.wellFormed, Instr.operands, Operand.inField, List.all_cons, List.all_nil, h4, h8, h12,
    decide_true, Bool.and_true]

/-- A word under a mask that keeps the top nibble. -/
theorem and_top (w : Word) : w &&& 0xF000 = BitVec.ofNat 16 (w.toNat / 4096 % 16 * 4096) := by
  ext k hk
  simp only [BitVec.getElem_and]
  interval_cases k <;> simp [BitVec.getElem_eq_testBit_toNat, Nat.testBit, Nat.shiftRight_eq_div_pow] <;> omega

/-- A word under a mask that keeps the top and the bottom nibble. -/
theorem and_top_low (w : Word) : w &&& 0xF00F = BitVec.ofNat 16 (w.toNat / 4096 % 16 * 4096 + w.toNat % 16) := by
  ext k hk
  simp only [BitVec.getElem_and]
  interval_cases k <;> simp [BitVec.getElem_eq_testBit_toNat, Nat.testBit, Nat.shiftRight_eq_div_pow] <;> omega

/-- A word under a mask that keeps the top nibble and the low byte. -/
theorem and_top_byte (w : Word) : w &&& 0xF0FF = BitVec.ofNat 16 (w.toNat / 4096 % 16 * 4096 + w.toNat % 256) := by
  ext k hk
  simp only [BitVec.getElem_and]
  interval_cases k <;> simp [BitVec.getElem_eq_testBit_toNat, Nat.testBit, Nat.shiftRight_eq_div_pow] <;> omega

/-- A format FA word under its row's mask. -/
theorem accepts_wordFA (op : Nibble) (nnn : Addr12) :
    (OpRow.mk (BitVec.ofNat 16 (op.toNat * 4096)) 0xF000).accepts (wordFA op nnn) = true := by
  simp only [OpRow.accepts, and_top, toNat_wordFA, beq_iff_eq]
  exact congrArg (BitVec.ofNat 16) (by omega)

/-- A format FXN word under a mask of the top nibble. -/
theorem accepts_wordFXN (op x : Nibble) (nn : Byte) :
    (OpRow.mk (BitVec.ofNat 16 (op.toNat * 4096)) 0xF000).accepts (wordFXN op x nn) = true := by
  simp only [OpRow.accepts, and_top, toNat_wordFXN, beq_iff_eq]
  exact congrArg (BitVec.ofNat 16) (by omega)

/-- A format FX word under its row's mask. -/
theorem accepts_wordFX (op x : Nibble) (f : Byte) :
    (OpRow.mk (BitVec.ofNat 16 (op.toNat * 4096 + f.toNat)) 0xF0FF).accepts (wordFXN op x f) = true := by
  simp only [OpRow.accepts, and_top_byte, toNat_wordFXN, beq_iff_eq]
  exact congrArg (BitVec.ofNat 16) (by omega)

/-- A format FXY word under its row's mask. -/
theorem accepts_wordFXY (op x y n : Nibble) :
    (OpRow.mk (BitVec.ofNat 16 (op.toNat * 4096 + n.toNat)) 0xF00F).accepts (wordFXY op x y n) = true := by
  simp only [OpRow.accepts, and_top_low, toNat_wordFXY, beq_iff_eq]
  exact congrArg (BitVec.ofNat 16) (by omega)

/-- A format FXYN word under its row's mask. -/
theorem accepts_wordFXYN (op x y n : Nibble) :
    (OpRow.mk (BitVec.ofNat 16 (op.toNat * 4096)) 0xF000).accepts (wordFXY op x y n) = true := by
  simp only [OpRow.accepts, and_top, toNat_wordFXY, beq_iff_eq]
  exact congrArg (BitVec.ofNat 16) (by omega)

theorem clear : Statement .clear := ⟨wellFormed_all _, by decide⟩
theorem ret : Statement .ret := ⟨wellFormed_all _, by decide⟩
theorem jump (nnn : Addr12) : Statement (.jump nnn) := ⟨wellFormed_all _, accepts_wordFA 0x1 nnn⟩
theorem call (nnn : Addr12) : Statement (.call nnn) := ⟨wellFormed_all _, accepts_wordFA 0x2 nnn⟩
theorem skipEqConst (x : Nibble) (nn : Byte) : Statement (.skipEqConst x nn) := ⟨wellFormed_all _, accepts_wordFXN 0x3 x nn⟩
theorem skipNeConst (x : Nibble) (nn : Byte) : Statement (.skipNeConst x nn) := ⟨wellFormed_all _, accepts_wordFXN 0x4 x nn⟩
theorem skipEqReg (x y : Nibble) : Statement (.skipEqReg x y) := ⟨wellFormed_all _, accepts_wordFXY 0x5 x y 0x0⟩
theorem setConst (x : Nibble) (nn : Byte) : Statement (.setConst x nn) := ⟨wellFormed_all _, accepts_wordFXN 0x6 x nn⟩
theorem addConst (x : Nibble) (nn : Byte) : Statement (.addConst x nn) := ⟨wellFormed_all _, accepts_wordFXN 0x7 x nn⟩
theorem copy (x y : Nibble) : Statement (.copy x y) := ⟨wellFormed_all _, accepts_wordFXY 0x8 x y 0x0⟩
theorem orReg (x y : Nibble) : Statement (.orReg x y) := ⟨wellFormed_all _, accepts_wordFXY 0x8 x y 0x1⟩
theorem andReg (x y : Nibble) : Statement (.andReg x y) := ⟨wellFormed_all _, accepts_wordFXY 0x8 x y 0x2⟩
theorem xorReg (x y : Nibble) : Statement (.xorReg x y) := ⟨wellFormed_all _, accepts_wordFXY 0x8 x y 0x3⟩
theorem addReg (x y : Nibble) : Statement (.addReg x y) := ⟨wellFormed_all _, accepts_wordFXY 0x8 x y 0x4⟩
theorem subReg (x y : Nibble) : Statement (.subReg x y) := ⟨wellFormed_all _, accepts_wordFXY 0x8 x y 0x5⟩
theorem shiftRight (x y : Nibble) : Statement (.shiftRight x y) := ⟨wellFormed_all _, accepts_wordFXY 0x8 x y 0x6⟩
theorem subRegRev (x y : Nibble) : Statement (.subRegRev x y) := ⟨wellFormed_all _, accepts_wordFXY 0x8 x y 0x7⟩
theorem shiftLeft (x y : Nibble) : Statement (.shiftLeft x y) := ⟨wellFormed_all _, accepts_wordFXY 0x8 x y 0xE⟩
theorem skipNeReg (x y : Nibble) : Statement (.skipNeReg x y) := ⟨wellFormed_all _, accepts_wordFXY 0x9 x y 0x0⟩
theorem setAddress (nnn : Addr12) : Statement (.setAddress nnn) := ⟨wellFormed_all _, accepts_wordFA 0xA nnn⟩
theorem jumpPlus (nnn : Addr12) : Statement (.jumpPlus nnn) := ⟨wellFormed_all _, accepts_wordFA 0xB nnn⟩
theorem random (x : Nibble) (nn : Byte) : Statement (.random x nn) := ⟨wellFormed_all _, accepts_wordFXN 0xC x nn⟩
theorem draw (x y n : Nibble) : Statement (.draw x y n) := ⟨wellFormed_all _, accepts_wordFXYN 0xD x y n⟩
theorem skipKey (x : Nibble) : Statement (.skipKey x) := ⟨wellFormed_all _, accepts_wordFX 0xE x 0x9E⟩
theorem skipNotKey (x : Nibble) : Statement (.skipNotKey x) := ⟨wellFormed_all _, accepts_wordFX 0xE x 0xA1⟩
theorem getDelay (x : Nibble) : Statement (.getDelay x) := ⟨wellFormed_all _, accepts_wordFX 0xF x 0x07⟩
theorem getKey (x : Nibble) : Statement (.getKey x) := ⟨wellFormed_all _, accepts_wordFX 0xF x 0x0A⟩
theorem setDelay (x : Nibble) : Statement (.setDelay x) := ⟨wellFormed_all _, accepts_wordFX 0xF x 0x15⟩
theorem setSound (x : Nibble) : Statement (.setSound x) := ⟨wellFormed_all _, accepts_wordFX 0xF x 0x18⟩
theorem addAddress (x : Nibble) : Statement (.addAddress x) := ⟨wellFormed_all _, accepts_wordFX 0xF x 0x1E⟩
theorem fontSprite (x : Nibble) : Statement (.fontSprite x) := ⟨wellFormed_all _, accepts_wordFX 0xF x 0x29⟩
theorem storeBcd (x : Nibble) : Statement (.storeBcd x) := ⟨wellFormed_all _, accepts_wordFX 0xF x 0x33⟩
theorem regDump (x : Nibble) : Statement (.regDump x) := ⟨wellFormed_all _, accepts_wordFX 0xF x 0x55⟩
theorem regLoad (x : Nibble) : Statement (.regLoad x) := ⟨wellFormed_all _, accepts_wordFX 0xF x 0x65⟩

end Sys2Proof.Laws.FitsTable
end

