-- ==== Sys2Proof/Laws/Step.lean ====
section
/-!
SUPPORT. What one step can do, said once: blocked, a failed fetch, an illegal word, or an executed instruction.
-/

namespace Sys2Proof.Machine

/-- No step is blocked exactly when the engine is neither faulted nor waiting. -/
theorem stepBlocked_eq_none_iff (s : State) :
    stepBlocked s = none ↔ s.status.isFaulted = false ∧ s.waiting = false := by
  unfold stepBlocked
  cases hs : s.status <;> cases hw : s.waiting <;> simp [Status.isFaulted]

/-- The inversion of `step`: if it answers a next state, it was enabled, and one of three things happened. -/
theorem step_next_cases {s t : State} (h : step s = .next t) :
    stepBlocked s = none ∧
    ((∃ d, s.fetch = .error d ∧ t = s.beginStep.raise .memoryOutOfRange s.pc none (some d)) ∨
     (∃ w, s.fetch = .ok w ∧
      ((∃ e, decode w = .error e ∧ t = s.beginStep.advance.raise .decodeFailure s.beginStep.advance.fetchAddr (some w) none) ∨
       (∃ i u, decode w = .ok i ∧ exec i s.beginStep.advance = .next u ∧
        t = if u.status.isFaulted then u else u.timerTick)))) := by
  unfold step stepOrStop at h
  cases hb : stepBlocked s with
  | some f => simp [hb] at h
  | none =>
    rw [hb] at h
    refine ⟨rfl, ?_⟩
    have hf : s.beginStep.fetch = s.fetch := rfl
    simp only [cycle, hf] at h
    cases hw : s.fetch with
    | error d => simp only [hw] at h; exact .inl ⟨d, rfl, by simpa using h.symm⟩
    | ok w =>
      simp only [hw, decodeExecute] at h
      refine .inr ⟨w, rfl, ?_⟩
      cases hd : decode w with
      | error e => simp only [hd] at h; exact .inl ⟨e, rfl, by simpa using h.symm⟩
      | ok i =>
        simp only [hd] at h
        cases hx : exec i s.beginStep.advance with
        | next u => simp only [hx, finishStep_next] at h; exact .inr ⟨i, u, rfl, hx, by simpa using h.symm⟩
        | fault f => simp [hx, finishStep] at h
        | refused r => simp [hx, finishStep] at h

/-- The forward direction on an executed instruction. -/
theorem step_of_exec {s u : State} {w : Word} {i : Instr} (hb : stepBlocked s = none) (hf : s.fetch = .ok w)
    (hd : decode w = .ok i) (hx : exec i s.beginStep.advance = .next u) :
    step s = .next (if u.status.isFaulted then u else u.timerTick) := by
  have hf' : s.beginStep.fetch = .ok w := hf
  simp [step, stepOrStop, hb, cycle, hf', decodeExecute, hd, hx]

end Sys2Proof.Machine
end

