-- ==== Sys2Proof/Laws/Stored.lean ====
section
/-!
SUPPORT. What memory reads as after the two instructions that store, byte by byte.
-/

namespace Sys2Proof.Machine

/-- After the block of a Register-dump every byte is the one `dumpedByte` names. -/
theorem read_dumped (x : Nibble) (s : State) (a : Nat) :
    Memory.read (Memory.writeBlock s.mem s.base (s.regsUpTo x)) a = dumpedByte x s a := by
  unfold dumpedByte State.base
  split
  case isTrue h =>
    have hk : a - s.I.toNat < (s.regsUpTo x).length := by simp; omega
    have := Memory.read_writeBlock_inside (m := s.mem) (a := s.I.toNat) hk
    rwa [Nat.add_sub_cancel' h.1, State.getElem_regsUpTo] at this
  case isFalse h =>
    exact Memory.read_writeBlock_outside (by simp; omega)

/-- After the block of a Store-BCD every byte is the one `bcdByte` names. -/
theorem read_bcd (x : Nibble) (s : State) (a : Nat) :
    Memory.read (Memory.writeBlock s.mem s.base (bcdDigits (s.reg x))) a = bcdByte x s a := by
  have hd : bcdDigits (s.reg x) = [BitVec.ofNat 8 ((s.reg x).toNat / 100), BitVec.ofNat 8 ((s.reg x).toNat / 10 % 10),
      BitVec.ofNat 8 ((s.reg x).toNat % 10)] := by
    generalize s.reg x = v; revert v; decide
  rw [hd, Memory.read_writeBlock]
  unfold bcdByte State.base
  by_cases h0 : a = s.I.toNat
  · simp [h0]
  by_cases h1 : a = s.I.toNat + 1
  · simp [h1]
  by_cases h2 : a = s.I.toNat + 2
  · simp [h2]
  simp only [h0, h1, h2, if_false]
  split
  · rw [List.getElem?_eq_none (by simp; omega)]; rfl
  · rfl

end Sys2Proof.Machine
end

