-- ==== Sys2Proof/Machine/Assembly.lean ====
section
/-!
DEFINITION. The assembly syntax of spec/30_encoding.md R83: the spelling of each instruction, and of a word no instruction has. The
spellings are the spec's own choice (D24, log 28) and no step reads them.
-/

namespace Sys2Proof

/-- One hexadecimal digit. -/
def hexDigit (d : Nibble) : Char :=
  match d.toNat with
  | 0 => '0' | 1 => '1' | 2 => '2' | 3 => '3' | 4 => '4' | 5 => '5' | 6 => '6' | 7 => '7'
  | 8 => '8' | 9 => '9' | 10 => 'A' | 11 => 'B' | 12 => 'C' | 13 => 'D' | 14 => 'E' | _ => 'F'

/-- The last `k` hexadecimal digits of a number, high digit first. -/
def hexDigits : Nat → Nat → List Char
  | 0, _ => []
  | k + 1, v => hexDigits k (v / 16) ++ [hexDigit (BitVec.ofNat 4 v)]

/-- An immediate of `k` digits, written `0xnn` (R83). -/
def hexText (k v : Nat) : String := "0x" ++ String.ofList (hexDigits k v)

/-- A register, `V0` to `VF` (R83). -/
def regText (x : Nibble) : String := "V" ++ String.ofList [hexDigit x]

/-- A mnemonic with one operand. -/
def text1 (name a : String) : String := name ++ " " ++ a

/-- A mnemonic with two operands. -/
def text2 (name a b : String) : String := name ++ " " ++ a ++ ", " ++ b

/-- The spelling of an instruction, by the table of R83. -/
def Instr.asm : Instr → String
  | .clear => "CLS"
  | .ret => "RET"
  | .jump nnn => text1 "JP" (hexText 3 nnn.toNat)
  | .call nnn => text1 "CALL" (hexText 3 nnn.toNat)
  | .skipEqConst x nn => text2 "SE" (regText x) (hexText 2 nn.toNat)
  | .skipNeConst x nn => text2 "SNE" (regText x) (hexText 2 nn.toNat)
  | .skipEqReg x y => text2 "SE" (regText x) (regText y)
  | .setConst x nn => text2 "LD" (regText x) (hexText 2 nn.toNat)
  | .addConst x nn => text2 "ADD" (regText x) (hexText 2 nn.toNat)
  | .copy x y => text2 "LD" (regText x) (regText y)
  | .orReg x y => text2 "OR" (regText x) (regText y)
  | .andReg x y => text2 "AND" (regText x) (regText y)
  | .xorReg x y => text2 "XOR" (regText x) (regText y)
  | .addReg x y => text2 "ADD" (regText x) (regText y)
  | .subReg x y => text2 "SUB" (regText x) (regText y)
  | .shiftRight x y => text2 "SHR" (regText x) (regText y)
  | .subRegRev x y => text2 "SUBN" (regText x) (regText y)
  | .shiftLeft x y => text2 "SHL" (regText x) (regText y)
  | .skipNeReg x y => text2 "SNE" (regText x) (regText y)
  | .setAddress nnn => text2 "LD" "I" (hexText 3 nnn.toNat)
  | .jumpPlus nnn => text2 "JP" "V0" (hexText 3 nnn.toNat)
  | .random x nn => text2 "RND" (regText x) (hexText 2 nn.toNat)
  | .draw x y n => text2 "DRW" (regText x) (regText y) ++ ", " ++ toString n.toNat
  | .skipKey x => text1 "SKP" (regText x)
  | .skipNotKey x => text1 "SKNP" (regText x)
  | .getDelay x => text2 "LD" (regText x) "DT"
  | .getKey x => text2 "LD" (regText x) "K"
  | .setDelay x => text2 "LD" "DT" (regText x)
  | .setSound x => text2 "LD" "ST" (regText x)
  | .addAddress x => text2 "ADD" "I" (regText x)
  | .fontSprite x => text2 "LD" "F" (regText x)
  | .storeBcd x => text2 "LD" "B" (regText x)
  | .regDump x => text2 "LD" "[I]" (regText x)
  | .regLoad x => text2 "LD" (regText x) "[I]"

/-- The spelling of a word: its instruction, or the data word `DW 0xhhhh` (R83). -/
def wordText (w : Word) : String :=
  match decode w with
  | .ok i => i.asm
  | .error _ => text1 "DW" (hexText 4 w.toNat)

end Sys2Proof
end

