-- ==== Sys2Proof/Tests/Slice0.lean ====
section
/-!
SUPPORT. Tests. Expected results come from spec/95_test_vectors.md (S<n>, V<n>, P<n>) or are worked by hand from the rule named, never
from the model. Then, for every statement with hypotheses, a witness that meets them all.
-/

namespace Sys2Proof.Tests

open Sys2Proof.Machine

/-- The state with one word loaded at 0x200 and nothing stepped. -/
def boot (w : Word) : State := (State.reset.load [highByte w, lowByte w]).state

/-- The next state of an answer. -/
def nextOf : Result → Option State
  | .next t => some t
  | .fault _ => none
  | .refused _ => none

/-- What one step leaves, seen through a view. -/
def look {α : Type} (s : State) (f : State → α) : Option α := (nextOf (step s)).map f

/-- A state that has stopped on a StackUnderflow at 0x200. -/
def faultedState : State :=
  { State.reset with pc := 0x202, status := .faulted ⟨.stackUnderflow, 0x200, some 0x00EE, none⟩ }

/-- A state that waits for a key into `V[3]`. -/
def waitingState : State := { State.reset with pc := 0x202, status := .running, waiting := true, waitReg := 3 }

/-- A state whose policy refuses odd fetches. -/
def strict (s : State) : State := { s with policies := ⟨.fault, .perAxis⟩ }

/-! ### Well-formedness: each check refuses an ill-formed term -/

theorem test_wf_nibble_out_of_field : Operand.inField ⟨8, 4, 16⟩ = false := by decide
theorem test_wf_byte_out_of_field : Operand.inField ⟨0, 8, 256⟩ = false := by decide
theorem test_wf_address_out_of_field : Operand.inField ⟨0, 12, 4096⟩ = false := by decide
theorem test_wf_operand_not_in_word : Operand.heldBy ⟨8, 4, 2⟩ 0x3142 = false := by decide
theorem test_wf_row_refuses_word : OpRow.accepts ⟨0x5000, 0xF00F⟩ 0x5121 = false := by decide
theorem test_wf_reads_refuses_other_row : (Instr.addReg 1 2).reads 0x8125 = false := by decide
theorem test_wf_reads_refuses_other_operand : (Instr.addReg 1 2).reads 0x8134 = false := by decide
theorem test_wf_reads_accepts : (Instr.addReg 0xA 0xB).reads 0x8AB4 = true := by decide
theorem test_wf_instruction : (Instr.draw 0xF 0xF 0xF).wellFormed = true := by decide
theorem test_wf_table_has_34_rows : opcodeTable.length = 34 := by decide
/-- V3: one word of each family that has words of no row. -/
theorem test_wf_illegal_words :
    ([0x0123, 0x5121, 0x8128, 0x9121, 0xE19F, 0xF1FF].map legalWord).all (· == false) = true := by decide

/-! ### Decoding: a word written out bit by bit from R74 for every constructor, operands 1, 2, 5 or a distinct constant -/

theorem test_decode_family0 :
    decode 0b0000000011100000 = .ok .clear ∧ decode 0b0000000011101110 = .ok .ret := by decide
theorem test_decode_jump_call :
    decode 0b0001010001010110 = .ok (.jump 0x456) ∧ decode 0b0010101010111100 = .ok (.call 0xABC) := by decide
theorem test_decode_skips :
    decode 0b0011001101000010 = .ok (.skipEqConst 3 0x42) ∧ decode 0b0100001101000010 = .ok (.skipNeConst 3 0x42) ∧
    decode 0b0101000100100000 = .ok (.skipEqReg 1 2) ∧ decode 0b1001000100100000 = .ok (.skipNeReg 1 2) := by decide
theorem test_decode_consts :
    decode 0b0110101011111110 = .ok (.setConst 0xA 0xFE) ∧ decode 0b0111101011111110 = .ok (.addConst 0xA 0xFE) := by decide
theorem test_decode_family8_low :
    decode 0b1000000100100000 = .ok (.copy 1 2) ∧ decode 0b1000000100100001 = .ok (.orReg 1 2) ∧
    decode 0b1000000100100010 = .ok (.andReg 1 2) ∧ decode 0b1000000100100011 = .ok (.xorReg 1 2) := by decide
theorem test_decode_family8_high :
    decode 0b1000101010110100 = .ok (.addReg 0xA 0xB) ∧ decode 0b1000000100100101 = .ok (.subReg 1 2) ∧
    decode 0b1000000100100110 = .ok (.shiftRight 1 2) ∧ decode 0b1000000100100111 = .ok (.subRegRev 1 2) ∧
    decode 0b1000000100101110 = .ok (.shiftLeft 1 2) := by decide
theorem test_decode_addresses :
    decode 0b1010000100100011 = .ok (.setAddress 0x123) ∧ decode 0b1011001100000001 = .ok (.jumpPlus 0x301) := by decide
theorem test_decode_random_draw :
    decode 0b1100000100001111 = .ok (.random 1 0x0F) ∧ decode 0b1101000100100101 = .ok (.draw 1 2 5) := by decide
theorem test_decode_keys :
    decode 0b1110010110011110 = .ok (.skipKey 5) ∧ decode 0b1110010110100001 = .ok (.skipNotKey 5) := by decide
theorem test_decode_timers :
    decode 0b1111000100000111 = .ok (.getDelay 1) ∧ decode 0b1111001100001010 = .ok (.getKey 3) ∧
    decode 0b1111000100010101 = .ok (.setDelay 1) ∧ decode 0b1111000100011000 = .ok (.setSound 1) := by decide
theorem test_decode_memory :
    decode 0b1111000100011110 = .ok (.addAddress 1) ∧ decode 0b1111000100101001 = .ok (.fontSprite 1) ∧
    decode 0b1111000100110011 = .ok (.storeBcd 1) ∧ decode 0b1111001001010101 = .ok (.regDump 2) ∧
    decode 0b1111001001100101 = .ok (.regLoad 2) := by decide
/-- V3: all sixteen words fail. -/
theorem test_decode_rejects :
    ([0x0123, 0x00E1, 0x00FF, 0x5121, 0x512F, 0x8128, 0x812D, 0x812F, 0x9121, 0xE000, 0xE19F, 0xE1A2, 0xF000, 0xF1FF, 0xF10B, 0xF156].map
      fun w => decode w == .error .decodeFailure).all id = true := by decide
theorem test_decode_bytes_leaves_rest :
    decodeBytes [0xD1, 0x25, 0x12] = .ok (.draw 1 2 5, [0x12]) ∧ decodeBytes [0xD1] = .error .truncated := by decide
theorem test_decode_table_word :
    decodeTableWord 16 0x8AB4 = some (.addReg 0xA 0xB) ∧ decodeTableWord 16 0x8AB8 = none := by decide

/-! ### Encoding, by hand from R72 and R74 -/

theorem test_encode_low :
    [encode .clear, encode .ret, encode (.jump 0x456), encode (.call 0xABC), encode (.skipEqConst 3 0x42), encode (.skipNeConst 3 0x42),
      encode (.skipEqReg 1 2), encode (.setConst 0xA 0xFF), encode (.addConst 1 2)] =
    [0x00E0, 0x00EE, 0x1456, 0x2ABC, 0x3342, 0x4342, 0x5120, 0x6AFF, 0x7102] := by decide
theorem test_encode_family8 :
    [encode (.copy 1 2), encode (.orReg 1 2), encode (.andReg 1 2), encode (.xorReg 1 2), encode (.addReg 1 2), encode (.subReg 1 2),
      encode (.shiftRight 1 2), encode (.subRegRev 1 2), encode (.shiftLeft 1 2)] =
    [0x8120, 0x8121, 0x8122, 0x8123, 0x8124, 0x8125, 0x8126, 0x8127, 0x812E] := by decide
theorem test_encode_mid :
    [encode (.skipNeReg 1 2), encode (.setAddress 0x123), encode (.jumpPlus 0x300), encode (.random 1 0x0F), encode (.draw 1 2 5),
      encode (.skipKey 1), encode (.skipNotKey 1)] =
    [0x9120, 0xA123, 0xB300, 0xC10F, 0xD125, 0xE19E, 0xE1A1] := by decide
theorem test_encode_familyF :
    [encode (.getDelay 1), encode (.getKey 3), encode (.setDelay 1), encode (.setSound 1), encode (.addAddress 1), encode (.fontSprite 1),
      encode (.storeBcd 1), encode (.regDump 2), encode (.regLoad 2)] =
    [0xF107, 0xF30A, 0xF115, 0xF118, 0xF11E, 0xF129, 0xF133, 0xF255, 0xF265] := by decide
theorem test_encode_bytes : encodeBytes (.draw 1 2 5) = [0xD1, 0x25] := by decide

/-! ### The assembly syntax (the listings of programs P1 to P5, and R83 for a data word) -/

theorem test_asm_listings :
    [wordText 0x6AFE, wordText 0xA300, wordText 0x220A, wordText 0xF265, wordText 0xFA33, wordText 0x00EE, wordText 0xD125, wordText 0xE29E] =
    ["LD VA, 0xFE", "LD I, 0x300", "CALL 0x20A", "LD V2, [I]", "LD B, VA", "RET", "DRW V1, V2, 5", "SKP V2"] := by decide +kernel
theorem test_asm_data_word : wordText 0x0123 = "DW 0x0123" := by decide +kernel

/-! ### The cycle -/

/-- R39, R53: what construction leaves. -/
theorem test_reset :
    State.reset.pc = 0x200 ∧ State.reset.sp = 0 ∧ Memory.read State.reset.mem 0 = 0xF0 ∧
    Memory.read State.reset.mem 79 = 0x80 ∧ Memory.read State.reset.mem 80 = 0 ∧ State.reset.status = .ready := by decide
/-- V1: from reset with nothing loaded. -/
theorem test_step_reset_decodes_zero :
    look State.reset (fun t => (t.pc, t.status)) =
      some (0x202, .faulted ⟨.decodeFailure, 0x200, some 0x0000, none⟩) := by decide
/-- V2: a faulted step has no timer phase. -/
theorem test_faulted_step_does_not_tick :
    look { State.reset with dt := 5, st := 3 } (fun t => (t.dt, t.st, t.tone)) = some (5, 3, false) := by decide
/-- V5: `Redraw` is cleared by the next step. -/
theorem test_redraw_cleared : look { boot 0x6000 with redraw := true } (fun t => t.redraw) = some false := by decide
/-- V6. -/
theorem test_fetch_at_top :
    look { State.reset with pc := 0xFFF } (fun t => (t.pc, t.status)) =
      some (0xFFF, .faulted ⟨.memoryOutOfRange, 0xFFF, none, some 0x1000⟩) := by decide
/-- V7. -/
theorem test_fetch_above_top :
    look { State.reset with pc := 0x1002 } (fun t => (t.pc, t.status)) =
      some (0x1002, .faulted ⟨.memoryOutOfRange, 0x1002, none, some 0x1002⟩) := by decide
/-- V8's second step under each policy. -/
theorem test_fetch_odd :
    look { (State.reset.load [0x12, 0x03, 0x00, 0x60, 0x42]).state with pc := 0x203 } (fun t => (t.reg 0, t.pc)) = some (0x42, 0x205) ∧
    look (strict { (State.reset.load [0x12, 0x03, 0x00, 0x60, 0x42]).state with pc := 0x203 }) (fun t => (t.pc, t.status)) =
      some (0x203, .faulted ⟨.memoryOutOfRange, 0x203, none, some 0x203⟩) := by decide
/-- V12, S14: no step while faulted or waiting. -/
theorem test_step_blocked :
    nextOf (step faultedState) = none ∧ nextOf (step waitingState) = none := by decide
theorem test_withFetchWord_runs_it :
    look (State.reset.withFetchWord 16 0x6AFF) (fun t => (t.reg 0xA, t.pc)) = some (0xFF, 0x202) := by decide
theorem test_withFetchWord_at_top :
    look ({ State.reset with pc := 0xFFE }.withFetchWord 16 0x1456) (fun t => t.pc) = some 0x456 := by decide

/-! ### Control flow -/

/-- S10. -/
theorem test_jump : look (boot 0x1456) (fun t => t.pc) = some 0x456 := by decide
/-- V23. -/
theorem test_call_empty :
    look (boot 0x2ABC) (fun t => (t.stack[0], t.sp, t.pc)) = some (0x202, 1, 0xABC) := by decide
/-- V24, V25. -/
theorem test_call_limit :
    look { boot 0x2ABC with sp := 15 } (fun t => (t.stack[15], t.sp, t.pc)) = some (0x202, 16, 0xABC) ∧
    look { boot 0x2ABC with sp := 16 } (fun t => (t.sp, t.pc, t.status)) =
      some (16, 0x202, .faulted ⟨.stackOverflow, 0x200, some 0x2ABC, none⟩) := by decide
/-- V26. -/
theorem test_return :
    look { boot 0x00EE with sp := 1, stack := (Vector.replicate 16 0).set 0 0x346 } (fun t => (t.pc, t.sp, t.stack[0])) =
      some (0x346, 0, 0x346) := by decide
/-- V27. -/
theorem test_return_empty :
    look (boot 0x00EE) (fun t => (t.pc, t.status)) =
      some (0x202, .faulted ⟨.stackUnderflow, 0x200, some 0x00EE, none⟩) := by decide
/-- V28. -/
theorem test_skip_eq_const :
    look ((boot 0x3342).setReg 3 0x42) (fun t => t.pc) = some 0x204 ∧
    look ((boot 0x3343).setReg 3 0x42) (fun t => t.pc) = some 0x202 := by decide
/-- V29. -/
theorem test_skip_ne_const :
    look ((boot 0x4342).setReg 3 0x42) (fun t => t.pc) = some 0x202 ∧
    look ((boot 0x4343).setReg 3 0x42) (fun t => t.pc) = some 0x204 := by decide
/-- V30, V31. -/
theorem test_skip_eq_reg :
    look (((boot 0x5120).setReg 1 7).setReg 2 7) (fun t => t.pc) = some 0x204 ∧
    look (((boot 0x5120).setReg 1 7).setReg 2 8) (fun t => t.pc) = some 0x202 := by decide
/-- V31, V32. -/
theorem test_skip_ne_reg :
    look (((boot 0x9120).setReg 1 7).setReg 2 8) (fun t => t.pc) = some 0x204 ∧
    look (((boot 0x9120).setReg 1 7).setReg 2 7) (fun t => t.pc) = some 0x202 := by decide
/-- V34, V35. -/
theorem test_jump_plus :
    look ((boot 0xB300).setReg 0 0x10) (fun t => t.pc) = some 0x310 ∧
    look ((boot 0xBFFF).setReg 0 0xFF) (fun t => t.pc) = some 0x10FE := by decide

/-! ### Register arithmetic -/

/-- V40. -/
theorem test_set_const : look (boot 0x6AFF) (fun t => t.reg 0xA) = some 0xFF := by decide
/-- V41, V42. -/
theorem test_add_const :
    look (((boot 0x7102).setReg 1 0xFF).setReg 0xF 0x55) (fun t => (t.reg 1, t.reg 0xF)) = some (0x01, 0x55) ∧
    look ((boot 0x7F01).setReg 0xF 0x10) (fun t => t.reg 0xF) = some 0x11 := by decide
/-- V43. -/
theorem test_copy : look ((boot 0x8120).setReg 2 0x9C) (fun t => (t.reg 1, t.reg 2)) = some (0x9C, 0x9C) := by decide
/-- V44, with operands 0xF3 and 0x35 worked by hand so that the three results differ. -/
theorem test_bitwise :
    ([0x8121, 0x8122, 0x8123].map fun w =>
      look ((((boot w).setReg 1 0xF3).setReg 2 0x35).setReg 0xF 0x55) (fun t => (t.reg 1, t.reg 2, t.reg 0xF))) =
    [some (0xF7, 0x35, 0x55), some (0x31, 0x35, 0x55), some (0xC6, 0x35, 0x55)] := by decide
/-- S4, S5. -/
theorem test_add_reg :
    look (((boot 0x8124).setReg 1 0xFF).setReg 2 1) (fun t => (t.reg 1, t.reg 0xF)) = some (0, 1) ∧
    look (((boot 0x8124).setReg 1 0x80).setReg 2 0x7F) (fun t => (t.reg 1, t.reg 0xF)) = some (0xFF, 0) := by decide
/-- V48, V49. -/
theorem test_add_reg_vf :
    look (((boot 0x8F14).setReg 0xF 0x80).setReg 1 0x90) (fun t => t.reg 0xF) = some 1 ∧
    look (((boot 0x81F4).setReg 1 0xFF).setReg 0xF 1) (fun t => (t.reg 1, t.reg 0xF)) = some (0, 1) := by decide
/-- S6, S7. -/
theorem test_sub_reg :
    look (((boot 0x8125).setReg 1 3).setReg 2 5) (fun t => (t.reg 1, t.reg 0xF)) = some (0xFE, 0) ∧
    look (((boot 0x8125).setReg 1 5).setReg 2 5) (fun t => (t.reg 1, t.reg 0xF)) = some (0, 1) := by decide
/-- V51, V52. -/
theorem test_sub_reg_vf :
    look (((boot 0x8F15).setReg 0xF 3).setReg 1 5) (fun t => t.reg 0xF) = some 0 ∧
    look (((boot 0x81F5).setReg 1 3).setReg 0xF 5) (fun t => (t.reg 1, t.reg 0xF)) = some (0xFE, 0) := by decide
/-- V53, V54. -/
theorem test_sub_reg_reversed :
    look (((boot 0x8127).setReg 1 3).setReg 2 5) (fun t => (t.reg 1, t.reg 0xF)) = some (2, 1) ∧
    look (((boot 0x8127).setReg 1 5).setReg 2 3) (fun t => (t.reg 1, t.reg 0xF)) = some (0xFE, 0) := by decide
/-- S8b, V58. -/
theorem test_shift_right :
    look ((boot 0x8126).setReg 2 1) (fun t => (t.reg 1, t.reg 2, t.reg 0xF)) = some (0, 0, 1) ∧
    look ((boot 0x8F26).setReg 2 6) (fun t => (t.reg 2, t.reg 0xF)) = some (3, 3) := by decide
/-- V59: the source is `VF`, read before it is written. -/
theorem test_shift_right_from_vf :
    look ((boot 0x81F6).setReg 0xF 7) (fun t => (t.reg 1, t.reg 0xF)) = some (3, 3) := by decide
/-- V60, V62. -/
theorem test_shift_left :
    look ((boot 0x812E).setReg 2 0x81) (fun t => (t.reg 1, t.reg 2, t.reg 0xF)) = some (2, 2, 0x80) ∧
    look ((boot 0x8F2E).setReg 2 0x41) (fun t => (t.reg 2, t.reg 0xF)) = some (0x82, 0x82) := by decide
/-- V65: whatever the byte drawn, a mask of 0 gives 0, and the draw is used up. -/
theorem test_random_mask_zero : look (boot 0xC100) (fun t => (t.reg 1, t.draws)) = some (0, 1) := by
  show some ((Config.draw8 0 &&& 0 : Byte), 1) = some (0, 1)
  simp

/-! ### Addresses and transfers -/

/-- V70. -/
theorem test_set_address : look (boot 0xA123) (fun t => t.I) = some 0x123 := by decide
/-- V71, V72. -/
theorem test_add_address :
    look (({ boot 0xF11E with I := 0x0FFF }.setReg 1 1).setReg 0xF 0x55) (fun t => (t.I, t.reg 0xF)) = some (0x1000, 0x55) ∧
    look ({ boot 0xF11E with I := 0xFFFF }.setReg 1 2) (fun t => t.I) = some 0x0001 := by decide
/-- V73, V75. -/
theorem test_font_sprite :
    look ((boot 0xF129).setReg 1 0x0A) (fun t => t.I) = some 0x032 ∧
    look ((boot 0xF129).setReg 1 0xFF) (fun t => t.I) = some 0x4FB := by decide
/-- S15, V77. -/
theorem test_store_bcd :
    look ({ boot 0xF133 with I := 0x300 }.setReg 1 0xFF) (fun t => (Memory.readBlock t.mem 0x300 3, t.I)) = some ([2, 5, 5], 0x300) ∧
    look ({ boot 0xF133 with I := 0xFFD }.setReg 1 0x80) (fun t => Memory.readBlock t.mem 0xFFD 3) = some [1, 2, 8] := by decide
/-- V78. -/
theorem test_store_bcd_out_of_range :
    look ({ boot 0xF133 with I := 0xFFE }.setReg 1 7) (fun t => (Memory.read t.mem 0xFFE, t.status)) =
      some (0, .faulted ⟨.memoryOutOfRange, 0x200, some 0xF133, some 0x1000⟩) := by decide
/-- V79. -/
theorem test_register_dump :
    look ((({ boot 0xF255 with I := 0x300 }.setReg 0 1).setReg 1 2).setReg 2 3)
      (fun t => (Memory.readBlock t.mem 0x300 4, t.I)) = some ([1, 2, 3, 0], 0x303) := by decide
/-- V80's last byte and V81. -/
theorem test_register_dump_top :
    look ({ boot 0xFF55 with I := 0xFF0 }.setReg 0xF 9) (fun t => (Memory.read t.mem 0xFFF, t.I)) = some (9, 0x1000) ∧
    look ({ boot 0xFF55 with I := 0xFF1 }.setReg 0 9) (fun t => (Memory.read t.mem 0xFF1, t.I, t.status)) =
      some (0, 0xFF1, .faulted ⟨.memoryOutOfRange, 0x200, some 0xFF55, some 0x1000⟩) := by decide
/-- V83: glyph 0. -/
theorem test_register_load_font :
    look (boot 0xF465) (fun t => (t.regsUpTo 5, t.I)) = some ([0xF0, 0x90, 0x90, 0x90, 0xF0, 0], 5) := by decide
/-- V84. -/
theorem test_register_load_out_of_range :
    look { boot 0xF065 with I := 0x1000 } (fun t => (t.reg 0, t.status)) =
      some (0, .faulted ⟨.memoryOutOfRange, 0x200, some 0xF065, some 0x1000⟩) := by decide

/-! ### The display -/

/-- V90. -/
theorem test_clear :
    look { (boot 0x00E0).setReg 0xF 1 with disp := Display.put Display.blank 63 31 true }
      (fun t => (t.pixel 63 31, t.redraw, t.reg 0xF)) = some (false, true, 1) := by decide +kernel
/-- V91: cells of the corners, the hole and just outside of glyph 0 at (8, 4). -/
theorem test_draw_zero :
    look (((boot 0xD125).setReg 1 8).setReg 2 4)
      (fun t => ([t.pixel 8 4, t.pixel 11 4, t.pixel 9 5, t.pixel 12 4, t.pixel 7 4, t.pixel 11 8, t.pixel 8 9], t.reg 0xF, t.redraw)) =
      some ([true, true, false, false, false, true, false], 0, true) := by decide +kernel
/-- P3's Draw under the flat-index policy: digit 5 at (62, 30) crosses the right edge into the next row. -/
theorem test_draw_flat :
    look (((boot 0xD125).setReg 1 62).setReg 2 30 |> fun s => { s with I := 25, policies := ⟨.fetch, .flatIndex⟩ })
      (fun t => [t.pixel 63 30, t.pixel 0 30, t.pixel 0 31, t.pixel 62 31, t.pixel 1 2, t.pixel 1 1, t.pixel 0 3]) =
      some [true, false, true, true, true, true, true] := by decide +kernel

/-! ### Keys and timers -/

/-- V100, V101. -/
theorem test_skip_key :
    look ({ boot 0xE19E with keys := (Vector.replicate 16 false).set 5 true }.setReg 1 5) (fun t => (t.pc, t.key 5)) =
      some (0x204, false) ∧
    look ((boot 0xE19E).setReg 1 5) (fun t => t.pc) = some 0x202 := by decide
/-- V104. -/
theorem test_skip_key_above_15 :
    look ({ boot 0xE19E with keys := (Vector.replicate 16 false).set 0 true }.setReg 1 0x10) (fun t => (t.key 0, t.status)) =
      some (true, .faulted ⟨.keyIndexOutOfRange, 0x200, some 0xE19E, some 0x10⟩) := by decide
/-- V102, V103. -/
theorem test_skip_not_key :
    look ({ boot 0xE1A1 with keys := (Vector.replicate 16 false).set 5 true }.setReg 1 5) (fun t => (t.pc, t.key 5)) =
      some (0x202, false) ∧
    look ((boot 0xE1A1).setReg 1 5) (fun t => t.pc) = some 0x204 := by decide
/-- V106. -/
theorem test_get_delay : look { boot 0xF107 with dt := 5 } (fun t => (t.reg 1, t.dt)) = some (5, 4) := by decide
/-- V108, V109. -/
theorem test_set_delay :
    look ((boot 0xF115).setReg 1 1) (fun t => t.dt) = some 0 ∧
    look ((boot 0xF115).setReg 1 0xFF) (fun t => t.dt) = some 0xFE := by decide
/-- S13's step, V110's first step. -/
theorem test_set_sound :
    look ((boot 0xF118).setReg 1 1) (fun t => (t.st, t.tone)) = some (0, true) ∧
    look ((boot 0xF118).setReg 1 2) (fun t => (t.st, t.tone)) = some (1, false) := by decide
/-- V112. -/
theorem test_get_key : look (boot 0xF30A) (fun t => (t.waiting, t.waitReg, t.pc)) = some (true, 3, 0x202) := by decide
/-- V113, V115, V114. -/
theorem test_deliver_key :
    (waitingState.deliverKey 0xC).state.reg 3 = 0x0C ∧ (waitingState.deliverKey 0xC).state.waiting = false ∧
    (waitingState.deliverKey 0x10).reply = .badKeyIndex ∧ (State.reset.deliverKey 5).reply = .noWaitPending := by decide

/-! ### Witnesses: the hypotheses of each statement, met -/

theorem witness_EncodeOfDecodeIsTheWord : decode 0x8AB4 = .ok (.addReg 0xA 0xB) := by decide
theorem witness_FamilyEightHasNineSubOpcodes :
    (0xF#4 : Nibble) ∈ [0x8#4, 0x9#4, 0xA#4, 0xB#4, 0xC#4, 0xD#4, 0xF#4] := by decide

/-- The execute phase that raises nothing and the one that raises an error. -/
theorem witness_StepRunsTheDecodedInstruction : (boot 0x6AFF).runs (.setConst 0xA 0xFF) ∧ (boot 0x00EE).runs .ret := by
  unfold State.runs State.enabled State.fetchable; decide

theorem witness_FetchAndDecodeFailuresAreFatal_odd :
    (strict { State.reset with pc := 0x203 }).enabled ∧
    (strict { State.reset with pc := 0x203 }).policies.oddPc = .fault ∧ (strict { State.reset with pc := 0x203 }).pc.toNat % 2 = 1 := by
  unfold State.enabled; decide
theorem witness_FetchAndDecodeFailuresAreFatal_range :
    ({ State.reset with pc := 0xFFF } : State).enabled ∧ (0xFFF : Nat) ≤ ({ State.reset with pc := 0xFFF } : State).pc.toNat ∧
    ¬(({ State.reset with pc := 0xFFF } : State).policies.oddPc = .fault ∧ ({ State.reset with pc := 0xFFF } : State).pc.toNat % 2 = 1) := by
  unfold State.enabled; decide
theorem witness_FetchAndDecodeFailuresAreFatal_word :
    ({ State.reset with pc := 0xFFE } : State).enabled ∧ ({ State.reset with pc := 0xFFE } : State).fetchable ∧
    legalWord ({ State.reset with pc := 0xFFE } : State).nextWord = false := by
  unfold State.enabled State.fetchable; decide

theorem witness_NoStepWhileFaultedOrWaiting :
    faultedState.status = .faulted ⟨.stackUnderflow, 0x200, some 0x00EE, none⟩ ∧
    (∀ e, waitingState.status ≠ .faulted e) ∧ waitingState.waiting = true := by
  refine ⟨by decide, fun e h => ?_, by decide⟩
  cases h
theorem witness_EnabledStepAlwaysAnswers : State.reset.enabled := by unfold State.enabled; decide

/-- A fetch failure and an error of an instruction. -/
theorem witness_FatalErrorsArePrecise :
    (∃ t, step { State.reset with pc := 0xFFF } = .next t ∧ t.status = .faulted ⟨.memoryOutOfRange, 0xFFF, none, some 0x1000⟩) ∧
    (∃ t, step (boot 0x00EE) = .next t ∧ t.status = .faulted ⟨.stackUnderflow, 0x200, some 0x00EE, none⟩) :=
  ⟨⟨_, rfl, rfl⟩, ⟨_, rfl, rfl⟩⟩

/-- A step that faults and one that completes, with the sound timer one above zero. -/
theorem witness_EveryCompletedStepCountsTheTimers :
    (∃ t, step State.reset = .next t ∧ t.status.isFaulted = true) ∧
    (∃ t, step { boot 0x1200 with st := 1 } = .next t ∧ t.status.isFaulted = false ∧
      decode ({ boot 0x1200 with st := 1 } : State).nextWord = .ok (.jump 0x200) ∧
      soundAtTick (.jump 0x200) { boot 0x1200 with st := 1 } = 1) :=
  ⟨⟨_, rfl, rfl⟩, ⟨_, rfl, rfl, by decide, by decide⟩⟩

/-- The sound timer at two, and at zero. -/
theorem witness_ToneIsForOneStepOnly :
    (∃ t, step { boot 0x1200 with st := 2 } = .next t ∧ t.status.isFaulted = false ∧
      decode ({ boot 0x1200 with st := 2 } : State).nextWord = .ok (.jump 0x200) ∧
      soundAtTick (.jump 0x200) { boot 0x1200 with st := 2 } ≠ 1) ∧
    (∃ t, step (boot 0x1200) = .next t ∧ t.status.isFaulted = false ∧
      decode (boot 0x1200).nextWord = .ok (.jump 0x200) ∧ soundAtTick (.jump 0x200) (boot 0x1200) ≠ 1) :=
  ⟨⟨_, rfl, rfl, by decide, by decide⟩, ⟨_, rfl, rfl, by decide, by decide⟩⟩

/-- A step that draws, one that does not, and one that faults. -/
theorem witness_RedrawMarksTheDrawingSteps :
    (∃ t, step (boot 0x00E0) = .next t ∧ t.status.isFaulted = false ∧ decode (boot 0x00E0).nextWord = .ok .clear) ∧
    (∃ t, step (boot 0x1200) = .next t ∧ t.status.isFaulted = false ∧ decode (boot 0x1200).nextWord = .ok (.jump 0x200)) ∧
    (∃ t, step State.reset = .next t ∧ t.status.isFaulted = true) :=
  ⟨⟨_, rfl, rfl, by decide⟩, ⟨_, rfl, rfl, by decide⟩, ⟨_, rfl, rfl⟩⟩

/-- Each of the own checks where it fails first, and one where it does not. -/
theorem witness_InstructionsRaiseExactlyTheirOwnError :
    ownError (.call 0) { State.reset with sp := 16 } = some (.stackOverflow, none) ∧
    ownError .ret State.reset = some (.stackUnderflow, none) ∧
    ownError (.storeBcd 0) { State.reset with I := 0xFFE } = some (.memoryOutOfRange, some 4096) ∧
    ownError (.draw 0 0 1) { State.reset with I := 0x1000 } = some (.memoryOutOfRange, some 4096) ∧
    ownError (.skipKey 1) (State.reset.setReg 1 16) = some (.keyIndexOutOfRange, some 16) ∧
    ownError (.draw 0 0 0) { State.reset with I := 0x1000 } = none ∧
    ownError (.call 0) { State.reset with sp := 15 } = none := by decide

theorem witness_InstructionsChangeOnlyTheirParts :
    ∃ t, exec (.copy 1 2) State.reset = .next t ∧ t.status = State.reset.status := ⟨_, rfl, rfl⟩

theorem witness_OnlyClearAndDrawMutateTheDisplay :
    ∃ t, step { boot 0x00E0 with disp := Display.put Display.blank 63 31 true } = .next t ∧
      t.pixel 63 31 ≠ ({ boot 0x00E0 with disp := Display.put Display.blank 63 31 true } : State).pixel 63 31 ∧
      Transaction.deliverKey 5 ≠ .step :=
  ⟨_, rfl, by decide +kernel, fun h => by cases h⟩

/-- Both instructions, each at the last byte of its block. -/
theorem witness_OnlyBcdAndDumpChangeMemory :
    (∃ t, step ({ boot 0xF133 with I := 0x300 }.setReg 1 7) = .next t ∧
      Memory.read t.mem 0x302 ≠ Memory.read ({ boot 0xF133 with I := 0x300 }.setReg 1 7).mem 0x302) ∧
    (∃ t, step ({ boot 0xF155 with I := 0x300 }.setReg 1 7) = .next t ∧
      Memory.read t.mem 0x301 ≠ Memory.read ({ boot 0xF155 with I := 0x300 }.setReg 1 7).mem 0x301) :=
  ⟨⟨_, rfl, by decide⟩, ⟨_, rfl, by decide⟩⟩

theorem witness_SoundTimerIsSeenOnlyThroughTone : ∃ t, step { boot 0x1200 with st := 1 } = .next t := ⟨_, rfl⟩

/-- The invariant holds of a waiting machine. -/
theorem inv_waiting : waitingState.Inv where
  memWf := by decide
  pcBound := by decide
  stackBound := by decide
  readyPc := by decide
  waitingRuns := by decide
  faultedRedraw := by decide
  toneSilent := by decide
  record := fun e h => by cases h

/-- The invariant holds of a faulted machine. -/
theorem inv_faulted : faultedState.Inv where
  memWf := by decide
  pcBound := by decide
  stackBound := by decide
  readyPc := by decide
  waitingRuns := by decide
  faultedRedraw := by decide
  toneSilent := by decide
  record := fun e h => by
    cases h
    exact
      { notImage := by decide
        fetchFailed := fun h => by cases h
        wordFetched := fun w h => by cases h; decide
        illegalWord := fun w h => by cases h; decide
        detailGiven := by decide
        badAddress := fun h => by cases h
        badKey := fun h => by cases h }

/-- The invariant holds of a running machine about to call. -/
theorem inv_running : ({ boot 0x2ABC with status := .running, sp := 15 } : State).Inv where
  memWf := by decide
  pcBound := by decide
  stackBound := by decide
  readyPc := by decide
  waitingRuns := by decide
  faultedRedraw := by decide
  toneSilent := by decide
  record := fun e h => by cases h

theorem witness_EveryStepKeepsTheInvariant :
    ({ boot 0x2ABC with status := .running, sp := 15 } : State).Inv ∧
      ∃ t, step { boot 0x2ABC with status := .running, sp := 15 } = .next t := ⟨inv_running, ⟨_, rfl⟩⟩
theorem witness_EveryTransactionKeepsTheInvariant : waitingState.Inv ∧ faultedState.Inv := ⟨inv_waiting, inv_faulted⟩

/-- One memory reached by two orders of writes. -/
theorem witness_EqualReadsMeanEqualMemories :
    Memory.wf (Memory.write (Memory.write [] 0x300 1) 0xFFF 2) ∧ Memory.wf (Memory.write (Memory.write [] 0xFFF 2) 0x300 1) ∧
    ∀ a, Memory.read (Memory.write (Memory.write [] 0x300 1) 0xFFF 2) a = Memory.read (Memory.write (Memory.write [] 0xFFF 2) 0x300 1) a := by
  refine ⟨by decide, by decide, fun a => ?_⟩
  rw [show Memory.write (Memory.write [] 0x300 1) 0xFFF 2 = Memory.write (Memory.write [] 0xFFF 2) 0x300 1 by decide]

theorem witness_CallPushesAndJumps : ({ State.reset with sp := 15 } : State).sp.val < 16 := by decide
theorem witness_ReturnPopsTheTop :
    ({ State.reset with sp := 16 } : State).sp.val = (15 : Fin 16).val + 1 ∧
    ({ State.reset with sp := 1 } : State).sp.val = (0 : Fin 16).val + 1 := by decide
theorem witness_StackLimitsAreFatal : ({ State.reset with sp := 16 } : State).sp.val = 16 ∧ State.reset.sp.val = 0 := by decide
theorem witness_ReturnUndoesCall :
    ({ State.reset with sp := 15 } : State).sp.val < 16 ∧
    ∃ t, exec (.call 0x300) { State.reset with sp := 15 } = .next t ∧ Same .stack t { t with pc := 0x302 } :=
  ⟨by decide, _, rfl, rfl, fun _ => rfl⟩

theorem witness_StoreBcdWritesTheDigits : ({ State.reset with I := 0xFFD } : State).I.toNat + 2 < 4096 := by decide
theorem witness_RegisterDumpStoresTheRun : ({ State.reset with I := 0xFF0 } : State).I.toNat + (0xF : Nibble).toNat < 4096 := by decide
theorem witness_RegisterLoadLoadsTheRun : ({ State.reset with I := 0xFFF } : State).I.toNat + (0 : Nibble).toNat < 4096 := by decide
/-- One past the end for each of the three. -/
theorem witness_TransfersOutOfRangeAreFatal :
    (4096 < ({ State.reset with I := 0xFFE } : State).I.toNat + 3) ∧
    (4096 < ({ State.reset with I := 0xFF1 } : State).I.toNat + ((0xF : Nibble).toNat + 1)) ∧
    (4096 < ({ State.reset with I := 0x1000 } : State).I.toNat + ((0 : Nibble).toNat + 1)) ∧
    ((Instr.storeBcd 1 = .storeBcd 1 ∧ 3 = 3) ∨ (Instr.storeBcd 1 = .regDump 1 ∧ 3 = (1 : Nibble).toNat + 1) ∨
      (Instr.storeBcd 1 = .regLoad 1 ∧ 3 = (1 : Nibble).toNat + 1)) := by decide
theorem witness_RegisterLoadInvertsDump :
    ({ State.reset with I := 0xFF0 } : State).I.toNat + (0xF : Nibble).toNat < 4096 ∧
    ∃ t, exec (.regDump 0xF) { State.reset with I := 0xFF0 } = .next t ∧ Same .mem t (({ t with I := 0xFF0 } : State).setReg 3 7) ∧
      (({ t with I := 0xFF0 } : State).setReg 3 7).I = ({ State.reset with I := 0xFF0 } : State).I :=
  ⟨by decide, _, rfl, fun _ => rfl, rfl⟩
/-- A dump over both bytes of the next instruction, and one over its first byte alone. -/
theorem witness_DumpedBytesAreFetchedNext_dump :
    (({ boot 0xF155 with I := 0x202 } : State).afterFetch.fetchable ∧ ({ boot 0xF155 with I := 0x202 } : State).runs (.regDump 1) ∧
      ({ boot 0xF155 with I := 0x202 } : State).I.toNat + (1 : Nibble).toNat < 4096) ∧
    (({ boot 0xF255 with I := 0x200 } : State).afterFetch.fetchable ∧ ({ boot 0xF255 with I := 0x200 } : State).runs (.regDump 2) ∧
      ({ boot 0xF255 with I := 0x200 } : State).I.toNat + (2 : Nibble).toNat < 4096) := by
  unfold State.runs State.enabled State.fetchable; decide
/-- A Store-BCD whose last two digits are the next instruction. -/
theorem witness_DumpedBytesAreFetchedNext_bcd :
    ({ boot 0xF133 with I := 0x201 } : State).afterFetch.fetchable ∧ ({ boot 0xF133 with I := 0x201 } : State).runs (.storeBcd 1) ∧
    ({ boot 0xF133 with I := 0x201 } : State).I.toNat + 2 < 4096 := by
  unfold State.runs State.enabled State.fetchable; decide
/-- V85's second form: the first byte of the next word is stored, the second is what memory held. -/
theorem test_stored_bytes :
    (dumpedByte 0 ({ boot 0xF055 with I := 0x202 }.setReg 0 0x12) 0x202, dumpedByte 0 ({ boot 0xF055 with I := 0x202 }.setReg 0 0x12) 0x203) =
      (0x12, 0x00) ∧
    ([0x300, 0x301, 0x302, 0x303].map fun a => bcdByte 1 ({ boot 0xF133 with I := 0x300 }.setReg 1 0xFF) a) = [2, 5, 5, 0] := by decide

/-- The last rows that fit, and no rows with `I` above memory. -/
theorem witness_DrawInvertsTheCoveredCells :
    ({ State.reset with I := 0xFF1 } : State).I.toNat + (0xF : Nibble).toNat ≤ 4096 ∧ (0 : Nibble).toNat = 0 := by decide
/-- A sprite that covers a cell: digit 0 at the origin covers (0, 0) and not (4, 0), under both policies. -/
theorem witness_SpriteCovers :
    SpriteCovers State.reset 0 0 5 0 0 ∧ ¬SpriteCovers State.reset 0 0 5 4 0 ∧
    SpriteCovers { State.reset with policies := ⟨.fetch, .flatIndex⟩ } 0 0 5 0 0 := by
  unfold SpriteCovers
  refine ⟨⟨0, by decide, 0, by decide, by decide, And.intro rfl rfl⟩, ?_, ⟨0, by decide, 0, by decide, by decide, rfl⟩⟩
  rintro ⟨r, hr, c, hc, h⟩
  have key : ∀ r < 5, ∀ c < 8, ¬((Memory.read State.reset.mem (State.reset.I.toNat + r)).getLsbD (7 - c) = true ∧
      (((State.reset.reg 0).toNat + c) % 64 = 4 ∧ ((State.reset.reg 0).toNat + r) % 32 = 0)) := by decide
  exact key r hr c hc h
theorem witness_DrawOutOfRangeIsFatal :
    0 < (1 : Nibble).toNat ∧ 4096 < ({ State.reset with I := 0x1000 } : State).I.toNat + (1 : Nibble).toNat := by decide
theorem witness_SpritePixelsLandApart :
    (7 : Nat) < 8 ∧ (14 : Nat) < 15 ∧ place .flatIndex (62 + 7) (31 + 14) = place .flatIndex (62 + 7) (31 + 14) :=
  ⟨by decide, by decide, rfl⟩
theorem witness_DrawingTwiceErasesAndCollides :
    (1 : Nibble) ≠ 0xF ∧ (2 : Nibble) ≠ 0xF ∧ State.reset.I.toNat + (5 : Nibble).toNat ≤ 4096 ∧
    (∀ col row, State.reset.pixel col row = false) ∧ ∃ t, exec (.draw 1 2 5) State.reset = .next t := by
  refine ⟨by decide, by decide, by decide, fun col row => ?_, _, rfl⟩
  simp only [State.pixel, State.reset]
  exact Display.get_blank col row

theorem witness_KeySkipsTestAndClear : ((State.reset.setReg 1 15).reg 1).toNat = (15 : Fin 16).val := by decide
theorem witness_KeyIndexAboveFifteenIsFatal : 15 < ((State.reset.setReg 1 16).reg 1).toNat := by decide
theorem witness_SecondKeyTestFindsNotPressed :
    ((State.reset.setReg 1 15).reg 1).toNat ≤ 15 ∧
    ∃ t, exec (.skipKey 1) (State.reset.setReg 1 15) = .next t ∧ Same .keys t t ∧ t.reg 1 = (State.reset.setReg 1 15).reg 1 :=
  ⟨by decide, _, rfl, fun _ => rfl, by decide⟩

/-- The first byte past the font, at any construction. -/
theorem witness_ConstructionInstallsTheFont : (80 : Nat) ≤ 80 := by decide
/-- The longest image, one byte more, and a machine that is no longer Ready. -/
theorem witness_LoadCopiesTheImage :
    State.reset.status = .ready ∧ (List.replicate 3584 (0xAA : Byte)).length ≤ 3584 ∧
    3584 < (List.replicate 3585 (0xAA : Byte)).length ∧ waitingState.status ≠ .ready := by
  exact ⟨by decide, by rw [List.length_replicate], by rw [List.length_replicate]; decide, by decide⟩
theorem witness_DeliverKeyWritesTheTarget :
    waitingState.waiting = true ∧ (15 : Nat) ≤ 15 ∧ (15 : Nat) < 16 ∧ State.reset.waiting = false := by decide
theorem witness_GetKeyThenDeliverResumes :
    (boot 0xF30A).runs (.getKey 3) ∧ (∃ t, step (boot 0xF30A) = .next t) ∧ (15 : Nat) ≤ 15 := by
  refine ⟨?_, ⟨_, rfl⟩, by decide⟩
  unfold State.runs State.enabled State.fetchable; decide
theorem witness_TheWaitFreezesTheMachine :
    waitingState.Inv ∧ waitingState.waiting = true ∧ ∀ k, Transaction.step ≠ .deliverKey k :=
  ⟨inv_waiting, by decide, fun k h => by cases h⟩
theorem witness_FaultedIsForGood :
    faultedState.Inv ∧ faultedState.status = .faulted ⟨.stackUnderflow, 0x200, some 0x00EE, none⟩ := ⟨inv_faulted, by decide⟩
/-- The self-jump at 0x20E of program P1. -/
theorem witness_NormalEndIsIdle :
    ({ State.reset with pc := 0x20E, status := .running, mem := Memory.writeBlock [] 0x20E [0x12, 0x0E] } : State).endedNormally ∧
    ({ State.reset with pc := 0x20E, status := .running, mem := Memory.writeBlock [] 0x20E [0x12, 0x0E] } : State).fetchable := by
  unfold State.endedNormally State.fetchable; decide

end Sys2Proof.Tests
end

section
/-!
PROOFS. Construction: what the installed font leaves in memory (R39, R51), and that the default font leaves the memory of `State.reset`.
-/

namespace Sys2Proof.Machine

/-- Past the font an unlisted address reads as zero (R39). -/
theorem Memory.resetByte_past_font {a : Nat} (h : 80 ≤ a) : Memory.resetByte a = 0 :=
  List.getD_eq_default _ _ h

/-- A byte equal to what its unlisted address reads as is not listed (log 23). -/
theorem Memory.write_nil_resetByte (a : Nat) : Memory.write [] a (Memory.resetByte a) = [] := by
  simp [Memory.write, Memory.erase]

/-- A block of such bytes leaves the empty memory empty. -/
theorem Memory.writeBlock_nil_resetBytes {a : Nat} {bs : List Byte}
    (h : ∀ k (hk : k < bs.length), bs[k] = Memory.resetByte (a + k)) : Memory.writeBlock [] a bs = [] := by
  induction bs generalizing a with
  | nil => rfl
  | cons b bs ih =>
    have hb : b = Memory.resetByte a := h 0 (Nat.zero_lt_succ _)
    rw [Memory.writeBlock, hb, Memory.write_nil_resetByte]
    refine ih fun k hk => ?_
    simpa [Nat.add_assoc, Nat.add_comm 1 k] using h (k + 1) (Nat.succ_lt_succ hk)

/-- Installing the default font lists nothing: each of its bytes is what its unlisted address reads as. -/
theorem Memory.writeBlock_nil_defaultFont : Memory.writeBlock [] 0 Config.defaultFont.toList = [] := by
  refine Memory.writeBlock_nil_resetBytes fun k hk => ?_
  rw [Nat.zero_add]
  exact (List.getD_eq_getElem _ _ hk).symm

/-- Construction with the defaults is the reset state. -/
theorem State.construct_defaultParams : State.construct Config.defaultParams = State.reset :=
  congrArg (fun m => { State.reset with mem := m }) Memory.writeBlock_nil_defaultFont

/-- R51: the font stands at 0x000 to 0x04F. -/
theorem State.read_construct_font (p : Config.Params) (a : Fin 80) :
    Memory.read (State.construct p).mem a.val = p.font[a] := by
  have ha : a.val < p.font.toList.length := by simp
  have hread := Memory.read_writeBlock_inside (m := []) (a := 0) ha
  rw [Nat.zero_add] at hread
  exact hread.trans (Vector.getElem_toList ha)

/-- R39: every byte past the font is zero. -/
theorem State.read_construct_past_font (p : Config.Params) {a : Nat} (h : 80 ≤ a) :
    Memory.read (State.construct p).mem a = 0 :=
  calc Memory.read (State.construct p).mem a
      = Memory.read [] a := Memory.read_writeBlock_outside (.inr (by simpa using h))
    _ = 0 := Memory.resetByte_past_font h

/-- R39: every register is zero after construction. -/
theorem State.reg_construct (p : Config.Params) (r : Nibble) : (State.construct p).reg r = 0 :=
  Vector.getElem_replicate r.isLt

/-- R39: every stack entry is zero after construction. -/
theorem State.stack_construct (p : Config.Params) (k : Fin 16) : (State.construct p).stack[k] = 0 :=
  Vector.getElem_replicate k.isLt

/-- D6: no key is latched after construction. -/
theorem State.key_construct (p : Config.Params) (k : Fin 16) : (State.construct p).key k = false :=
  Vector.getElem_replicate k.isLt

/-- Settles O53: the memory by the two reads of a written block, the files of registers, stack and latches entry by entry,
the display as blank; the remaining fields are those of `State.reset` or the parameters themselves. -/
theorem constructionInstallsTheFont : Obligations.ConstructionInstallsTheFont :=
  ⟨State.construct_defaultParams, fun p =>
    ⟨State.read_construct_font p, fun _ => State.read_construct_past_font p, State.reg_construct p, State.stack_construct p,
      rfl, rfl, rfl, rfl, rfl, Display.get_blank, State.key_construct p, rfl, rfl, rfl, rfl, rfl, rfl⟩⟩

end Sys2Proof.Machine
end

section
/-!
PROOFS. Decoder and opcode table (spec/30_encoding.md R74 to R82): a word some row of the table accepts decodes, and the word of an
instruction is accepted by the instruction's row.
-/

namespace Sys2Proof

open Laws.FitsTable

/-! ### What a row's fixed bits say of a word -/

/-- Under a mask of the top nibble a row accepts the words of its family. -/
theorem opField_of_accepts_top {w : Word} {op : Nibble}
    (h : (OpRow.mk (BitVec.ofNat 16 (op.toNat * 4096)) 0xF000).accepts w = true) : opField w = op := by
  have hw := congrArg BitVec.toNat (beq_iff_eq.1 h)
  simp only [and_top, BitVec.toNat_ofNat] at hw
  exact BitVec.eq_of_toNat_eq (by rw [toNat_opField]; omega)

/-- Under a mask of the top and the bottom nibble a row accepts one sub-opcode of its family. -/
theorem fields_of_accepts_top_low {w : Word} {op n : Nibble}
    (h : (OpRow.mk (BitVec.ofNat 16 (op.toNat * 4096 + n.toNat)) 0xF00F).accepts w = true) :
    opField w = op ∧ nField w = n := by
  have hw := congrArg BitVec.toNat (beq_iff_eq.1 h)
  simp only [and_top_low, BitVec.toNat_ofNat] at hw
  exact ⟨BitVec.eq_of_toNat_eq (by rw [toNat_opField]; omega), BitVec.eq_of_toNat_eq (by rw [toNat_nField]; omega)⟩

/-- Under a mask of the top nibble and the low byte a row accepts one function of its family. -/
theorem fields_of_accepts_top_byte {w : Word} {op : Nibble} {f : Byte}
    (h : (OpRow.mk (BitVec.ofNat 16 (op.toNat * 4096 + f.toNat)) 0xF0FF).accepts w = true) :
    opField w = op ∧ nnField w = f := by
  have hw := congrArg BitVec.toNat (beq_iff_eq.1 h)
  simp only [and_top_byte, BitVec.toNat_ofNat] at hw
  exact ⟨BitVec.eq_of_toNat_eq (by rw [toNat_opField]; omega), BitVec.eq_of_toNat_eq (by rw [toNat_nnField]; omega)⟩

/-- Under the full mask a row accepts its pattern alone. -/
theorem eq_of_accepts_full {w p : Word} (h : (OpRow.mk p 0xFFFF).accepts w = true) : w = p := by
  have hw : w &&& BitVec.allOnes 16 = p := beq_iff_eq.1 h
  rwa [BitVec.and_allOnes] at hw

/-! ### The table by its masks -/

/-- The families that every `x`, `y` and `n` complete (R74). -/
def plainFamilies : List Nibble := [0x1, 0x2, 0x3, 0x4, 0x6, 0x7, 0xA, 0xB, 0xC, 0xD]

/-- The families with a sub-opcode in `n`, each with its values (R76, R77). -/
def subOpcodes : List (Nibble × Nibble) :=
  [(0x5, 0x0), (0x9, 0x0)] ++ [0x0, 0x1, 0x2, 0x3, 0x4, 0x5, 0x6, 0x7, 0xE].map (fun n => (0x8, n))

/-- The families with a function in `nn`, each with its values (R78, R79). -/
def functionBytes : List (Nibble × Byte) :=
  [0x9E, 0xA1].map (fun f => (0xE, f)) ++ [0x07, 0x0A, 0x15, 0x18, 0x1E, 0x29, 0x33, 0x55, 0x65].map (fun f => (0xF, f))

/-- Every row of the table fixes a whole word, a family, a family and `n`, or a family and `nn`. -/
theorem opcodeTable_cases : ∀ r ∈ opcodeTable,
    (∃ p ∈ [0x00E0, 0x00EE], r = ⟨p, 0xFFFF⟩) ∨
    (∃ op ∈ plainFamilies, r = ⟨BitVec.ofNat 16 (op.toNat * 4096), 0xF000⟩) ∨
    (∃ c ∈ subOpcodes, r = ⟨BitVec.ofNat 16 (c.1.toNat * 4096 + c.2.toNat), 0xF00F⟩) ∨
    (∃ c ∈ functionBytes, r = ⟨BitVec.ofNat 16 (c.1.toNat * 4096 + c.2.toNat), 0xF0FF⟩) := by
  intro r hr
  fin_cases hr <;> simp [plainFamilies, subOpcodes, functionBytes]

theorem decode_plainFamily {w : Word} (h : opField w ∈ plainFamilies) : ∃ i, decode w = .ok i := by
  generalize hop : opField w = op at h
  fin_cases h <;> simp [decode, hop]

theorem decode_subOpcode {w : Word} (h : (opField w, nField w) ∈ subOpcodes) : ∃ i, decode w = .ok i := by
  generalize hop : opField w = op at h
  generalize hn : nField w = n at h
  fin_cases h <;> simp [decode, decodeFamily8, hop, hn]

theorem decode_functionByte {w : Word} (h : (opField w, nnField w) ∈ functionBytes) : ∃ i, decode w = .ok i := by
  generalize hop : opField w = op at h
  generalize hf : nnField w = f at h
  fin_cases h <;> simp [decode, decodeFamilyE, decodeFamilyF, hop, hf]

/-- R80, R82: a word some row of the table accepts decodes. -/
theorem decode_of_legalWord {w : Word} (h : legalWord w = true) : ∃ i, decode w = .ok i := by
  obtain ⟨r, hr, ha⟩ := List.any_eq_true.1 h
  obtain ⟨p, hp, rfl⟩ | ⟨op, hop, rfl⟩ | ⟨c, hc, rfl⟩ | ⟨c, hc, rfl⟩ := opcodeTable_cases r hr
  · obtain rfl := eq_of_accepts_full ha
    fin_cases hp
    · exact ⟨.clear, rfl⟩
    · exact ⟨.ret, rfl⟩
  · exact decode_plainFamily (opField_of_accepts_top ha ▸ hop)
  · obtain ⟨h1, h2⟩ := fields_of_accepts_top_low ha
    exact decode_subOpcode (by rw [h1, h2]; exact hc)
  · obtain ⟨h1, h2⟩ := fields_of_accepts_top_byte ha
    exact decode_functionByte (by rw [h1, h2]; exact hc)

/-- R82: a word the decoder fails on is illegal by the table. -/
theorem legalWord_of_decode_error {w : Word} {e : DecodeError} (h : decode w = .error e) : legalWord w = false := by
  by_contra hl
  obtain ⟨i, hi⟩ := decode_of_legalWord (Bool.eq_true_of_not_eq_false hl)
  rw [h] at hi
  cases hi

/-! ### The word of an instruction -/

/-- Every instruction's row stands in the table. -/
theorem row_mem_opcodeTable (i : Instr) : i.row ∈ opcodeTable := by
  cases i <;> simp [Instr.row, opcodeTable, opcodeRowsLow, opcodeRowsAlu, opcodeRowsMid, opcodeRowsHigh]

/-- The per-instruction statements of `FitsTable`, for all instructions at once. -/
theorem fitsTable (i : Instr) : Statement i :=
  match i with
  | .clear => clear
  | .ret => ret
  | .jump nnn => jump nnn
  | .call nnn => call nnn
  | .skipEqConst x nn => skipEqConst x nn
  | .skipNeConst x nn => skipNeConst x nn
  | .skipEqReg x y => skipEqReg x y
  | .setConst x nn => setConst x nn
  | .addConst x nn => addConst x nn
  | .copy x y => copy x y
  | .orReg x y => orReg x y
  | .andReg x y => andReg x y
  | .xorReg x y => xorReg x y
  | .addReg x y => addReg x y
  | .subReg x y => subReg x y
  | .shiftRight x y => shiftRight x y
  | .subRegRev x y => subRegRev x y
  | .shiftLeft x y => shiftLeft x y
  | .skipNeReg x y => skipNeReg x y
  | .setAddress nnn => setAddress nnn
  | .jumpPlus nnn => jumpPlus nnn
  | .random x nn => random x nn
  | .draw x y n => draw x y n
  | .skipKey x => skipKey x
  | .skipNotKey x => skipNotKey x
  | .getDelay x => getDelay x
  | .getKey x => getKey x
  | .setDelay x => setDelay x
  | .setSound x => setSound x
  | .addAddress x => addAddress x
  | .fontSprite x => fontSprite x
  | .storeBcd x => storeBcd x
  | .regDump x => regDump x
  | .regLoad x => regLoad x

/-- The word of an instruction is legal by the table. -/
theorem legalWord_encode (i : Instr) : legalWord (encode i) = true :=
  List.any_eq_true.2 ⟨i.row, row_mem_opcodeTable i, (fitsTable i).2⟩

end Sys2Proof
end

section
/-!
PROOFS. Frames by field equality: what each state operation and each execute phase leaves, field for field, stronger than the reads of
`Same`; and the two ways an execute phase ends, by the instruction's own check (60_exceptions.md R247).
-/

namespace Sys2Proof.Machine

/-! ### Frames -/

/-- The part is the same data in both states. -/
def Keeps (c : Component) (s t : State) : Prop :=
  match c with
  | .mem => t.mem = s.mem
  | .regs => t.v = s.v
  | .pc => t.pc = s.pc
  | .iReg => t.I = s.I
  | .stack => t.sp = s.sp ∧ t.stack = s.stack
  | .dt => t.dt = s.dt
  | .st => t.st = s.st
  | .keys => t.keys = s.keys
  | .disp => t.disp = s.disp
  | .redraw => t.redraw = s.redraw
  | .tone => t.tone = s.tone
  | .wait => t.waiting = s.waiting ∧ t.waitReg = s.waitReg
  | .status => t.status = s.status
  | .draws => t.draws = s.draws

/-- The same data reads the same. -/
theorem Keeps.same {c : Component} {s t : State} (h : Keeps c s t) : Same c s t := by
  cases c with
  | mem => exact fun a => congrArg (fun m => Memory.read m a) h
  | regs => exact fun r => congrArg (fun v : Vector Byte 16 => v[r.toNat]) h
  | stack => exact ⟨h.1, fun k => congrArg (fun v : Vector Word 16 => v[k]) h.2⟩
  | keys => exact fun k => congrArg (fun v : Vector Bool 16 => v[k]) h
  | disp => exact fun col row => congrArg (fun d => Display.get d col row) h
  | _ => exact h

theorem Keeps.refl (c : Component) (s : State) : Keeps c s s := by cases c <;> simp [Keeps]

theorem Keeps.trans {c : Component} {s t u : State} (h : Keeps c s t) (h' : Keeps c t u) : Keeps c s u := by
  cases c <;> simp_all [Keeps]

/-- Nothing outside the named parts differs as data, and the policies are the same. -/
def Frame (parts : List Component) (s t : State) : Prop := t.policies = s.policies ∧ ∀ c, c ∉ parts → Keeps c s t

theorem Frame.onlyChanges {parts : List Component} {s t : State} (h : Frame parts s t) : OnlyChanges parts s t :=
  ⟨h.1, fun c hc => (h.2 c hc).same⟩

theorem Frame.refl (parts : List Component) (s : State) : Frame parts s s := ⟨rfl, fun c _ => Keeps.refl c s⟩

/-- Two updates in a row change what either changes. -/
theorem Frame.trans {p q r : List Component} {s t u : State} (h : Frame p s t) (h' : Frame q t u)
    (hp : p ⊆ r := by simp [mayWrite]) (hq : q ⊆ r := by simp [mayWrite]) : Frame r s u :=
  ⟨h'.1.trans h.1, fun c hc => (h.2 c fun hm => hc (hp hm)).trans (h'.2 c fun hm => hc (hq hm))⟩

/-! What each update changes. -/

theorem frame_mem (s : State) (m : Memory) : Frame [.mem] s { s with mem := m } :=
  ⟨rfl, fun c hc => by cases c <;> simp_all [Keeps]⟩
theorem frame_regs (s : State) (v : Vector Byte 16) : Frame [.regs] s { s with v := v } :=
  ⟨rfl, fun c hc => by cases c <;> simp_all [Keeps]⟩
theorem frame_setReg (s : State) (x : Nibble) (b : Byte) : Frame [.regs] s (s.setReg x b) := frame_regs s _
theorem frame_setPc (s : State) (a : Word) : Frame [.pc] s (s.setPc a) :=
  ⟨rfl, fun c hc => by cases c <;> simp_all [Keeps]⟩
theorem frame_setI (s : State) (a : Word) : Frame [.iReg] s (s.setI a) :=
  ⟨rfl, fun c hc => by cases c <;> simp_all [Keeps]⟩
theorem frame_stack (s : State) (stack : Vector Word 16) (sp : Fin 17) :
    Frame [.stack] s { s with stack := stack, sp := sp } :=
  ⟨rfl, fun c hc => by cases c <;> simp_all [Keeps]⟩
theorem frame_dt (s : State) (b : Byte) : Frame [.dt] s { s with dt := b } :=
  ⟨rfl, fun c hc => by cases c <;> simp_all [Keeps]⟩
theorem frame_st (s : State) (b : Byte) : Frame [.st] s { s with st := b } :=
  ⟨rfl, fun c hc => by cases c <;> simp_all [Keeps]⟩
theorem frame_clearKey (s : State) (k : Fin 16) : Frame [.keys] s (s.clearKey k) :=
  ⟨rfl, fun c hc => by cases c <;> simp_all [Keeps]⟩
theorem frame_disp (s : State) (d : Display) : Frame [.disp, .redraw] s { s with disp := d, redraw := true } :=
  ⟨rfl, fun c hc => by cases c <;> simp_all [Keeps]⟩
theorem frame_wait (s : State) (x : Nibble) : Frame [.wait] s { s with waiting := true, waitReg := x } :=
  ⟨rfl, fun c hc => by cases c <;> simp_all [Keeps]⟩
theorem frame_draws (s : State) (n : Nat) : Frame [.draws] s { s with draws := n } :=
  ⟨rfl, fun c hc => by cases c <;> simp_all [Keeps]⟩
theorem frame_skipIf (s : State) (taken : Bool) : Frame [.pc] s (s.skipIf taken) := by
  rw [State.skipIf_eq]; exact frame_setPc s _

/-! ### How an execute phase ends -/

/-- A block check that fails: the range check names an address, and the error reports it (R186). -/
theorem outOfRange_of_blockError {start count : Nat} {kind : ErrorKind} {detail : Option Nat}
    (h : blockError start count = some (kind, detail)) :
    ∃ d, outOfRange start count = some d ∧ 4096 ≤ d ∧ kind = .memoryOutOfRange ∧ detail = some d := by
  unfold blockError at h
  split at h
  case isTrue hb => cases h; exact ⟨_, outOfRange_some hb, Nat.le_max_right _ _, rfl, rfl⟩
  case isFalse => cases h

/-- A block check that passes: the range check names no address. -/
theorem outOfRange_of_blockError_none {start count : Nat} (h : blockError start count = none) :
    outOfRange start count = none :=
  outOfRange_none fun hb => by simp [blockError, hb] at h

/-- A key check that fails: the register names no key, and the error reports its value (R226). -/
theorem keyIndex_of_keyError {b : Byte} {kind : ErrorKind} {detail : Option Nat}
    (h : keyError b.toNat = some (kind, detail)) :
    keyIndex b = none ∧ 15 < b.toNat ∧ kind = .keyIndexOutOfRange ∧ detail = some b.toNat := by
  unfold keyError at h
  split at h
  case isTrue hb => cases h; exact ⟨dif_neg (by omega), hb, rfl, rfl⟩
  case isFalse => cases h

/-- A key check that passes: the register names a key. -/
theorem keyIndex_of_keyError_none {b : Byte} (h : keyError b.toNat = none) : ∃ k, keyIndex b = some k := by
  obtain ⟨hb, hk⟩ | ⟨hb, -⟩ := keyIndex_cases b
  · exact ⟨_, hk⟩
  · simp [keyError, hb] at h

/-- What an instruction's own error can be: its kind, and a `detail` that fits the kind (R240, R244, R245). -/
theorem ownError_cases {i : Instr} {s : State} {kind : ErrorKind} {detail : Option Nat}
    (h : ownError i s = some (kind, detail)) :
    ((kind = .stackOverflow ∨ kind = .stackUnderflow) ∧ detail = none) ∨
    (kind = .memoryOutOfRange ∧ ∃ d, detail = some d ∧ 4096 ≤ d) ∨
    (kind = .keyIndexOutOfRange ∧ ∃ d, detail = some d ∧ 15 < d ∧ d < 256) := by
  have block : ∀ {start count : Nat}, blockError start count = some (kind, detail) →
      kind = .memoryOutOfRange ∧ ∃ d, detail = some d ∧ 4096 ≤ d := fun hb => by
    obtain ⟨d, -, hd, hk, hdet⟩ := outOfRange_of_blockError hb
    exact ⟨hk, d, hdet, hd⟩
  have key : ∀ {b : Byte}, keyError b.toNat = some (kind, detail) →
      kind = .keyIndexOutOfRange ∧ ∃ d, detail = some d ∧ 15 < d ∧ d < 256 := fun {b} hb => by
    obtain ⟨-, hd, hk, hdet⟩ := keyIndex_of_keyError hb
    exact ⟨hk, _, hdet, hd, b.isLt⟩
  cases i with
  | call nnn =>
    simp only [ownError] at h
    split at h
    case isTrue => cases h; exact .inl ⟨.inl rfl, rfl⟩
    case isFalse => cases h
  | ret =>
    simp only [ownError] at h
    split at h
    case isTrue => cases h; exact .inl ⟨.inr rfl, rfl⟩
    case isFalse => cases h
  | draw x y n => exact .inr (.inl (block h))
  | storeBcd x => exact .inr (.inl (block h))
  | regDump x => exact .inr (.inl (block h))
  | regLoad x => exact .inr (.inl (block h))
  | skipKey x => exact .inr (.inr (key h))
  | skipNotKey x => exact .inr (.inr (key h))
  | _ => cases h

/-- R240, R247: an instruction whose own check fails raises the error of that check. -/
theorem exec_of_ownError {i : Instr} {s : State} {kind : ErrorKind} {detail : Option Nat}
    (h : ownError i s = some (kind, detail)) : exec i s = s.raiseIn i kind detail := by
  cases i with
  | call nnn =>
    simp only [ownError] at h
    split at h
    case isTrue hs => cases h; simp [exec, execCall, State.push, hs]
    case isFalse => cases h
  | ret =>
    simp only [ownError] at h
    split at h
    case isTrue hs => cases h; simp [exec, execRet, State.pop, hs]
    case isFalse => cases h
  | draw x y n =>
    obtain ⟨d, hd, -, rfl, rfl⟩ := outOfRange_of_blockError h
    simp [exec, execDraw, State.base, hd]
  | storeBcd x =>
    obtain ⟨d, hd, -, rfl, rfl⟩ := outOfRange_of_blockError h
    simp [exec, execStoreBcd, State.base, hd]
  | regDump x =>
    obtain ⟨d, hd, -, rfl, rfl⟩ := outOfRange_of_blockError h
    simp [exec, execRegDump, State.base, hd]
  | regLoad x =>
    obtain ⟨d, hd, -, rfl, rfl⟩ := outOfRange_of_blockError h
    simp [exec, execRegLoad, State.base, hd]
  | skipKey x =>
    obtain ⟨hk, -, rfl, rfl⟩ := keyIndex_of_keyError h
    simp [exec, execSkipKey, hk]
  | skipNotKey x =>
    obtain ⟨hk, -, rfl, rfl⟩ := keyIndex_of_keyError h
    simp [exec, execSkipNotKey, hk]
  | _ => cases h

/-! The instructions that have a check of their own, where it passes. -/

/-- R132: Call with an entry free. -/
theorem exec_call_of_ownError_none {nnn : Addr12} {s : State} (h : ownError (.call nnn) s = none) :
    ∃ hs : s.sp.val < 16, exec (.call nnn) s =
      .next ({ s with stack := s.stack.set s.sp.val s.pc hs, sp := ⟨s.sp.val + 1, by omega⟩ }.setPc (zextAddr nnn)) := by
  obtain ⟨hs, hp⟩ | ⟨hs, -⟩ := State.push_cases s s.pc
  · exact ⟨hs, by simp [exec, execCall, hp]⟩
  · simp [ownError, hs] at h

/-- R130: Return with an entry in use. -/
theorem exec_ret_of_ownError_none {s : State} (h : ownError .ret s = none) :
    ∃ hs : 0 < s.sp.val, exec .ret s =
      .next ({ s with sp := ⟨s.sp.val - 1, by omega⟩ }.setPc (s.stack[s.sp.val - 1]'(by omega))) := by
  obtain ⟨hs, hp⟩ | ⟨hs, -⟩ := State.pop_cases s
  · exact ⟨hs, by simp [exec, execRet, hp]⟩
  · simp [ownError, hs] at h

/-- R201: Draw-sprite with its rows in range. -/
theorem exec_draw_of_ownError_none {x y n : Nibble} {s : State} (h : ownError (.draw x y n) s = none) :
    exec (.draw x y n) s = .next { s.setReg vf (collisionFlag (s.drawn x y n).collided) with
      disp := (s.drawn x y n).cells, redraw := true } := by
  simp [exec, execDraw, State.base, outOfRange_of_blockError_none h]

/-- R183: Store-BCD with its bytes in range. -/
theorem exec_storeBcd_of_ownError_none {x : Nibble} {s : State} (h : ownError (.storeBcd x) s = none) :
    exec (.storeBcd x) s = .next { s with mem := Memory.writeBlock s.mem s.base (bcdDigits (s.reg x)) } := by
  simp [exec, execStoreBcd, State.base, outOfRange_of_blockError_none h]

/-- R184: Register-dump with its block in range. -/
theorem exec_regDump_of_ownError_none {x : Nibble} {s : State} (h : ownError (.regDump x) s = none) :
    exec (.regDump x) s = .next ({ s with mem := Memory.writeBlock s.mem s.base (s.regsUpTo x) }.advanceI x) := by
  simp [exec, execRegDump, State.base, outOfRange_of_blockError_none h]

/-- R185: Register-load with its block in range. -/
theorem exec_regLoad_of_ownError_none {x : Nibble} {s : State} (h : ownError (.regLoad x) s = none) :
    exec (.regLoad x) s = .next ((s.setRegsFrom 0 (Memory.readBlock s.mem s.base (x.toNat + 1))).advanceI x) := by
  simp [exec, execRegLoad, State.base, outOfRange_of_blockError_none h]

/-- R220: Skip-if-key-pressed on a key that exists. -/
theorem exec_skipKey_of_ownError_none {x : Nibble} {s : State} (h : ownError (.skipKey x) s = none) :
    ∃ k, keyIndex (s.reg x) = some k ∧ exec (.skipKey x) s = .next ((s.clearKey k).skipIf (s.key k)) := by
  obtain ⟨k, hk⟩ := keyIndex_of_keyError_none h
  exact ⟨k, hk, by simp [exec, execSkipKey, hk]⟩

/-- R221: Skip-if-key-not-pressed on a key that exists. -/
theorem exec_skipNotKey_of_ownError_none {x : Nibble} {s : State} (h : ownError (.skipNotKey x) s = none) :
    ∃ k, keyIndex (s.reg x) = some k ∧ exec (.skipNotKey x) s = .next ((s.clearKey k).skipIf (!s.key k)) := by
  obtain ⟨k, hk⟩ := keyIndex_of_keyError_none h
  exact ⟨k, hk, by simp [exec, execSkipNotKey, hk]⟩

/-- The frame of every instruction whose own check passes: the parts `mayWrite` lists, and nothing else. -/
theorem exec_frame {i : Instr} {s t : State} (hok : ownError i s = none) (h : exec i s = .next t) :
    Frame (mayWrite i) s t := by
  cases i with
  | clear => cases h; exact frame_disp s _
  | ret =>
    obtain ⟨hs, he⟩ := exec_ret_of_ownError_none hok
    cases he.symm.trans h
    exact (frame_stack s s.stack _).trans (frame_setPc _ _)
  | jump nnn => cases h; exact frame_setPc s _
  | call nnn =>
    obtain ⟨hs, he⟩ := exec_call_of_ownError_none hok
    cases he.symm.trans h
    exact (frame_stack s _ _).trans (frame_setPc _ _)
  | skipEqConst x nn => cases h; exact frame_skipIf s _
  | skipNeConst x nn => cases h; exact frame_skipIf s _
  | skipEqReg x y => cases h; exact frame_skipIf s _
  | setConst x nn => cases h; exact frame_setReg s x _
  | addConst x nn => cases h; exact frame_setReg s x _
  | copy x y => cases h; exact frame_setReg s x _
  | orReg x y => cases h; exact frame_setReg s x _
  | andReg x y => cases h; exact frame_setReg s x _
  | xorReg x y => cases h; exact frame_setReg s x _
  | addReg x y => cases h; exact frame_regs s _
  | subReg x y => cases h; exact frame_regs s _
  | shiftRight x y => cases h; exact frame_regs s _
  | subRegRev x y => cases h; exact frame_regs s _
  | shiftLeft x y => cases h; exact frame_regs s _
  | skipNeReg x y => cases h; exact frame_skipIf s _
  | setAddress nnn => cases h; exact frame_setI s _
  | jumpPlus nnn => cases h; exact frame_setPc s _
  | random x nn => cases h; exact (frame_setReg s x _).trans (frame_draws _ _)
  | draw x y n =>
    cases (exec_draw_of_ownError_none hok).symm.trans h
    exact (frame_setReg s vf _).trans (frame_disp _ _)
  | skipKey x =>
    obtain ⟨k, -, he⟩ := exec_skipKey_of_ownError_none hok
    cases he.symm.trans h
    exact (frame_clearKey s k).trans (frame_skipIf _ _)
  | skipNotKey x =>
    obtain ⟨k, -, he⟩ := exec_skipNotKey_of_ownError_none hok
    cases he.symm.trans h
    exact (frame_clearKey s k).trans (frame_skipIf _ _)
  | getDelay x => cases h; exact frame_setReg s x _
  | getKey x => cases h; exact frame_wait s x
  | setDelay x => cases h; exact frame_dt s _
  | setSound x => cases h; exact frame_st s _
  | addAddress x => cases h; exact frame_setI s _
  | fontSprite x => cases h; exact frame_setI s _
  | storeBcd x => cases (exec_storeBcd_of_ownError_none hok).symm.trans h; exact frame_mem s _
  | regDump x =>
    cases (exec_regDump_of_ownError_none hok).symm.trans h
    exact (frame_mem s _).trans (frame_setI _ _)
  | regLoad x =>
    cases (exec_regLoad_of_ownError_none hok).symm.trans h
    rw [State.setRegsFrom_eq]
    exact (frame_regs s _).trans (frame_setI _ _)

/-- The execute phase said once: it raises the error of its own check and changes `Status` alone, or it completes inside its frame. -/
theorem exec_cases {i : Instr} {s t : State} (h : exec i s = .next t) :
    (∃ kind detail, ownError i s = some (kind, detail) ∧ t = s.raise kind s.fetchAddr (some (encode i)) detail) ∨
    (ownError i s = none ∧ Frame (mayWrite i) s t) := by
  cases hw : ownError i s with
  | some e =>
    refine .inl ⟨e.1, e.2, rfl, ?_⟩
    have he := (exec_of_ownError hw).symm.trans h
    cases he; rfl
  | none => exact .inr ⟨rfl, exec_frame hw h⟩

end Sys2Proof.Machine
end

section
/-!
PROOFS. One step by its four outcomes (spec/40_cycle.md R100, R107), and what of them the display and `Redraw` show (10_state.md R29, R32).
-/

namespace Sys2Proof.Machine

/-! ### Fetch -/

/-- R56, R58: a fetch that succeeds reads both bytes, and answers the big-endian word at `pc`. -/
theorem State.fetchable_of_fetch {s : State} {w : Word} (h : s.fetch = .ok w) : s.fetchable ∧ w = s.nextWord := by
  rw [State.fetch_eq] at h
  split at h
  case isTrue => cases h
  case isFalse hodd =>
    split at h
    case isTrue => cases h
    case isFalse hpc =>
      cases h
      exact ⟨⟨by unfold Config.memSize; omega, hodd⟩, rfl⟩

/-- R244: the address a failed fetch reports is out of range, or odd under the fault policy. -/
theorem State.badAddress_of_fetch {s : State} {d : Nat} (h : s.fetch = .error d) :
    4096 ≤ d ∨ (s.policies.oddPc = .fault ∧ d % 2 = 1) := by
  rw [State.fetch_eq] at h
  split at h
  case isTrue hodd => cases h; exact .inr hodd
  case isFalse =>
    split at h
    case isTrue => cases h; exact .inl (Nat.le_max_right _ _)
    case isFalse => cases h

/-! ### The frames of a step's phases -/

theorem frame_raise (s : State) (kind : ErrorKind) (addr : Word) (word : Option Word) (detail : Option Nat) :
    Frame [.status] s (s.raise kind addr word detail) :=
  ⟨rfl, fun c hc => by cases c <;> simp_all [Keeps]⟩
theorem frame_beginStep (s : State) : Frame [.status, .redraw] s s.beginStep :=
  ⟨rfl, fun c hc => by cases c <;> simp_all [Keeps]⟩
theorem frame_afterFetch (s : State) : Frame [.status, .redraw, .pc] s s.afterFetch :=
  (frame_beginStep s).trans (frame_setPc _ _)
theorem frame_timerTick (s : State) : Frame [.dt, .st, .tone] s s.timerTick := by
  rw [State.timerTick_eq]
  exact ⟨rfl, fun c hc => by cases c <;> simp_all [Keeps]⟩

/-- No instruction that passes its check writes `Status`. -/
theorem status_notMem_mayWrite (i : Instr) : Component.status ∉ mayWrite i := by cases i <;> simp [mayWrite]

/-! ### The outcomes of a step -/

/-- R100, R104: an executed instruction that passes its check, between the fetch and the tick. -/
structure Completes (i : Instr) (s u : State) : Prop where
  decoded : decode s.nextWord = .ok i
  passes : ownError i s.afterFetch = none
  executed : exec i s.afterFetch = .next u

/-- The frame of the execute phase of a completed step. -/
theorem Completes.frame {i : Instr} {s u : State} (h : Completes i s u) : Frame (mayWrite i) s.afterFetch u :=
  exec_frame h.passes h.executed

/-- A completed execute phase leaves the engine running. -/
theorem Completes.status {i : Instr} {s u : State} (h : Completes i s u) : u.status = .running :=
  h.frame.2 .status (status_notMem_mayWrite i)

/-- The tick leaves `Status`. -/
@[simp] theorem State.timerTick_status (s : State) : s.timerTick.status = s.status := (frame_timerTick s).2 .status (by decide)

/-- The post-fetch `pc` less 2 is the fetch address (R15). -/
@[simp] theorem State.fetchAddr_afterFetch (s : State) : s.afterFetch.fetchAddr = s.pc := by
  simp [State.fetchAddr, State.afterFetch]

/-- One step: enabled, and then a failed fetch, an illegal word, an error of the instruction, or an instruction completed and a tick. -/
theorem step_cases {s t : State} (h : step s = .next t) :
    s.enabled ∧
    ((∃ d, s.fetch = .error d ∧ t = s.beginStep.raise .memoryOutOfRange s.pc none (some d)) ∨
     (s.fetchable ∧
      ((∃ e, decode s.nextWord = .error e ∧ t = s.afterFetch.raise .decodeFailure s.pc (some s.nextWord) none) ∨
       (∃ i kind detail, decode s.nextWord = .ok i ∧ ownError i s.afterFetch = some (kind, detail) ∧
        t = s.afterFetch.raise kind s.pc (some (encode i)) detail) ∨
       (∃ i u, Completes i s u ∧ t = u.timerTick)))) := by
  have hadv : s.beginStep.advance = s.afterFetch := rfl
  obtain ⟨hb, ⟨d, hf, ht⟩ | ⟨w, hf, hw⟩⟩ := step_next_cases h
  · exact ⟨(stepBlocked_eq_none_iff s).1 hb, .inl ⟨d, hf, ht⟩⟩
  · obtain ⟨hfetch, rfl⟩ := State.fetchable_of_fetch hf
    rw [hadv, State.fetchAddr_afterFetch] at hw
    refine ⟨(stepBlocked_eq_none_iff s).1 hb, .inr ⟨hfetch, ?_⟩⟩
    obtain ⟨e, hd, ht⟩ | ⟨i, u, hd, hx, ht⟩ := hw
    · exact .inl ⟨e, hd, ht⟩
    · obtain ⟨kind, detail, ho, rfl⟩ | ⟨ho, -⟩ := exec_cases hx
      · rw [State.fetchAddr_afterFetch] at ht
        exact .inr (.inl ⟨i, kind, detail, hd, ho, ht⟩)
      · have hc : Completes i s u := ⟨hd, ho, hx⟩
        rw [hc.status] at ht
        exact .inr (.inr ⟨i, u, hc, ht⟩)

/-- A fatal step leaves `Redraw` cleared, and changes nothing but `Status`, `Redraw` and `pc`; any other completes an instruction. -/
theorem step_fatal_or_completes {s t : State} (h : step s = .next t) :
    (t.status.isFaulted = true ∧ t.redraw = false ∧ Frame [.status, .redraw, .pc] s t) ∨
    (∃ i u, Completes i s u ∧ t = u.timerTick) := by
  obtain ⟨-, ⟨d, -, rfl⟩ | ⟨-, ⟨e, -, rfl⟩ | ⟨i, kind, detail, -, -, rfl⟩ | hc⟩⟩ := step_cases h
  · exact .inl ⟨rfl, rfl, (frame_beginStep s).trans (frame_raise _ _ _ _ _)⟩
  · exact .inl ⟨rfl, rfl, (frame_afterFetch s).trans (frame_raise _ _ _ _ _)⟩
  · exact .inl ⟨rfl, rfl, (frame_afterFetch s).trans (frame_raise _ _ _ _ _)⟩
  · exact .inr hc

/-! ### The frame of all instructions -/

/-- Settles O15: by its own check an execute phase raises or completes. One that raises and leaves `Status` as it was raised the very
record that stood there and changes nothing; one that completes stays in its frame. -/
theorem instructionsChangeOnlyTheirParts : Obligations.InstructionsChangeOnlyTheirParts := by
  intro i s t h hst
  obtain ⟨kind, detail, -, rfl⟩ | ⟨-, hframe⟩ := exec_cases h
  · have hsame : s.raise kind s.fetchAddr (some (encode i)) detail = s :=
      congrArg (fun st => { s with status := st }) hst
    rw [hsame]
    exact (Frame.refl _ s).onlyChanges
  · exact hframe.onlyChanges

/-! ### `Redraw` and the display -/

/-- The instructions that may write `Redraw` are the drawing ones (R32). -/
theorem redraw_mem_mayWrite_iff (i : Instr) : Component.redraw ∈ mayWrite i ↔ isDrawing i := by
  cases i <;> simp [mayWrite, isDrawing]

/-- The instructions that may write cells are the drawing ones (R29). -/
theorem disp_mem_mayWrite_iff (i : Instr) : Component.disp ∈ mayWrite i ↔ isDrawing i := by
  cases i <;> simp [mayWrite, isDrawing]

/-- R32: a drawing instruction that completes sets `Redraw`. -/
theorem redraw_of_isDrawing {i : Instr} {s t : State} (hi : isDrawing i) (hok : ownError i s = none)
    (h : exec i s = .next t) : t.redraw = true := by
  obtain rfl | ⟨x, y, n, rfl⟩ := hi
  · cases h; rfl
  · cases (exec_draw_of_ownError_none hok).symm.trans h; rfl

/-- A completed step has `Redraw` exactly when its instruction draws. -/
theorem Completes.redraw_iff {i : Instr} {s u : State} (h : Completes i s u) : u.redraw = true ↔ isDrawing i := by
  refine ⟨fun hr => ?_, fun hi => redraw_of_isDrawing hi h.passes h.executed⟩
  by_contra hi
  have hkeep : u.redraw = s.afterFetch.redraw := h.frame.2 .redraw (mt (redraw_mem_mayWrite_iff i).1 hi)
  rw [hr] at hkeep
  cases hkeep

/-- Settles O13: a fatal step leaves `Redraw` cleared; a completed one has it as its execute phase left it, which the tick keeps. -/
theorem redrawMarksTheDrawingSteps : Obligations.RedrawMarksTheDrawingSteps := by
  intro s t h
  show (_ → ∀ i, _ → (t.redraw = true ↔ _)) ∧ (_ → t.redraw = false)
  obtain ⟨hfault, hredraw, -⟩ | ⟨i, u, hc, rfl⟩ := step_fatal_or_completes h
  · exact ⟨fun hn => by simp [hfault] at hn, fun _ => hredraw⟩
  · refine ⟨fun _ j hj => ?_, fun hf => ?_⟩
    · obtain rfl : i = j := Except.ok.inj (hc.decoded.symm.trans hj)
      rw [show u.timerTick.redraw = u.redraw from (frame_timerTick u).2 .redraw (by decide)]
      exact hc.redraw_iff
    · rw [State.timerTick_status, hc.status] at hf
      cases hf

/-- The rows of a vector of vectors laid end to end are its flattening. -/
theorem flatMap_toList_eq_flatten {α : Type} {m n : Nat} (xss : Vector (Vector α m) n) :
    xss.toList.flatMap Vector.toList = xss.flatten.toList :=
  calc xss.toList.flatMap Vector.toList
      = ((xss.toArray.map Vector.toArray).toList.map Array.toList).flatten := by
        rw [Array.toList_map, List.map_map]; rfl
    _ = xss.flatten.toList := Array.toList_flatten.symm

/-- R29: the cell in `col`, `row` stands at flat index `row * 64 + col` of the rows laid end to end. -/
theorem Display.getElem?_flat (d : Display) (col : Fin 64) (row : Fin 32) :
    (d.toList.flatMap Vector.toList)[row.val * 64 + col.val]? = some (Display.get d col row) := by
  have hlt : row.val * 64 + col.val < 32 * 64 := by omega
  have hrow : (row.val * 64 + col.val) / 64 = row.val := by omega
  have hcol : (row.val * 64 + col.val) % 64 = col.val := by omega
  rw [flatMap_toList_eq_flatten, Vector.getElem?_toList, Vector.getElem?_eq_getElem hlt, Vector.getElem_flatten]
  simp only [hrow, hcol]
  rfl

/-- No transaction of the host but `step` touches the display. -/
theorem transact_disp {a : Transaction} (ha : a ≠ .step) (s : State) : (transact a s).state.disp = s.disp := by
  cases a with
  | load bytes =>
    show (s.load bytes).state.disp = s.disp
    unfold State.load; split_ifs <;> rfl
  | step => exact absurd rfl ha
  | deliverKey k =>
    show (s.deliverKey k).state.disp = s.disp
    unfold State.deliverKey; split_ifs <;> rfl
  | mergeKeyState pressed => rfl

/-- A step that changes the display has completed a drawing instruction. -/
theorem isDrawing_of_disp_ne {s t : State} (h : step s = .next t) (hne : t.disp ≠ s.disp) :
    ∃ i, decode s.nextWord = .ok i ∧ isDrawing i := by
  obtain ⟨-, -, hframe⟩ | ⟨i, u, hc, rfl⟩ := step_fatal_or_completes h
  · exact absurd (hframe.2 .disp (by decide)) hne
  · refine ⟨i, hc.decoded, by_contra fun hi => hne ?_⟩
    calc u.timerTick.disp = u.disp := (frame_timerTick u).2 .disp (by decide)
      _ = s.disp := hc.frame.2 .disp (mt (disp_mem_mayWrite_iff i).1 hi)

/-- Settles O16: the flat index of a cell, then the steps and the other transactions by what they do to `disp`. -/
theorem onlyClearAndDrawMutateTheDisplay : Obligations.OnlyClearAndDrawMutateTheDisplay := by
  refine ⟨fun s => Display.getElem?_flat s.disp, fun s t h col row hne => ?_, fun a s ha col row => ?_⟩
  · exact isDrawing_of_disp_ne h fun hd => hne (congrArg (Display.get · col row) hd)
  · exact congrArg (Display.get · col row) (transact_disp ha s)

end Sys2Proof.Machine
end

section
/-!
PROOFS. The machine's invariant: it holds at construction (spec/10_state.md R39), and every step keeps it (R24, R50, R107, R132, R240).
-/

namespace Sys2Proof.Machine

/-! ### What an execute phase keeps of the invariant's bounds -/

/-- A store that passes its check writes inside the 4096 bytes. -/
theorem add_le_memSize_of_blockError_none {start count : Nat} (hc : 0 < count) (h : blockError start count = none) :
    start + count ≤ Config.memSize := by
  by_contra hgt
  unfold Config.memSize at hgt
  rw [blockError, if_pos ⟨hc, by omega⟩] at h
  cases h

/-- R50: the two instructions that store keep the canonical form of memory, and no other writes it. -/
theorem exec_memWf {i : Instr} {s t : State} (hok : ownError i s = none) (h : exec i s = .next t) (hm : Memory.wf s.mem) :
    Memory.wf t.mem := by
  by_cases hi : Component.mem ∈ mayWrite i
  · cases i with
    | storeBcd x =>
      cases (exec_storeBcd_of_ownError_none hok).symm.trans h
      exact Memory.writeBlock_wf _ (add_le_memSize_of_blockError_none (Nat.succ_pos 2) hok) hm
    | regDump x =>
      cases (exec_regDump_of_ownError_none hok).symm.trans h
      refine Memory.writeBlock_wf _ ?_ hm
      rw [State.length_regsUpTo]
      exact add_le_memSize_of_blockError_none (Nat.succ_pos _) hok
    | _ => simp [mayWrite] at hi
  · rw [show t.mem = s.mem from (exec_frame hok h).2 .mem hi]
    exact hm

/-- R132: a Call pushes the post-fetch `pc`, and no other instruction writes an entry. -/
theorem exec_stack_le {i : Instr} {s t : State} (hok : ownError i s = none) (h : exec i s = .next t)
    (hpc : s.pc.toNat ≤ 0x1000) (hst : ∀ k : Fin 16, s.stack[k].toNat ≤ 0x1000) (k : Fin 16) :
    t.stack[k].toNat ≤ 0x1000 := by
  by_cases hi : Component.stack ∈ mayWrite i
  · cases i with
    | ret =>
      obtain ⟨hs, he⟩ := exec_ret_of_ownError_none hok
      cases he.symm.trans h
      exact hst k
    | call nnn =>
      obtain ⟨hs, he⟩ := exec_call_of_ownError_none hok
      cases he.symm.trans h
      show ((s.stack.set s.sp.val s.pc hs)[k.val]).toNat ≤ 0x1000
      rw [Vector.getElem_set]
      split
      · exact hpc
      · exact hst k
    | _ => simp [mayWrite] at hi
  · have hkeep : t.sp = s.sp ∧ t.stack = s.stack := (exec_frame hok h).2 .stack hi
    rw [hkeep.2]
    exact hst k

/-- A skip from a post-fetch `pc` goes at most 2 on. -/
theorem State.skipIf_pc_le {s : State} (taken : Bool) (hpc : s.pc.toNat ≤ 0x1000) :
    (s.skipIf taken).pc.toNat ≤ 0x10FE := by
  rw [State.skipIf_eq, State.setPc_pc]
  split
  · rw [BitVec.toNat_add, show (2 : Word).toNat = 2 from rfl]; omega
  · omega

/-- An address immediate as a word has its value. -/
theorem toNat_zextAddr (nnn : Addr12) : (zextAddr nnn).toNat = nnn.toNat := by
  unfold zextAddr
  rw [BitVec.toNat_setWidth, Nat.mod_eq_of_lt (by omega)]

/-- R137: the target of Jump-plus is at most 0xFFF + 0xFF. -/
theorem jumpPlus_target_le (nnn : Addr12) (b : Byte) : (zextAddr nnn + zextByte b).toNat ≤ 0x10FE := by
  unfold zextByte
  rw [BitVec.toNat_add, toNat_zextAddr, BitVec.toNat_setWidth]
  omega

/-- R24: from a post-fetch `pc` and stack entries of at most 0x1000 no instruction sets `pc` above 0x10FE. -/
theorem exec_pc_le {i : Instr} {s t : State} (hok : ownError i s = none) (h : exec i s = .next t)
    (hpc : s.pc.toNat ≤ 0x1000) (hst : ∀ k : Fin 16, s.stack[k].toNat ≤ 0x1000) : t.pc.toNat ≤ 0x10FE := by
  have target : ∀ nnn : Addr12, (zextAddr nnn).toNat ≤ 0x10FE := fun nnn => by rw [toNat_zextAddr]; omega
  by_cases hi : Component.pc ∈ mayWrite i
  · cases i with
    | ret =>
      obtain ⟨hs, he⟩ := exec_ret_of_ownError_none hok
      cases he.symm.trans h
      exact (hst ⟨s.sp.val - 1, by omega⟩).trans (by decide)
    | jump nnn => cases h; exact target nnn
    | call nnn =>
      obtain ⟨hs, he⟩ := exec_call_of_ownError_none hok
      cases he.symm.trans h
      exact target nnn
    | jumpPlus nnn => cases h; exact jumpPlus_target_le nnn _
    | skipEqConst x nn => cases h; exact State.skipIf_pc_le _ hpc
    | skipNeConst x nn => cases h; exact State.skipIf_pc_le _ hpc
    | skipEqReg x y => cases h; exact State.skipIf_pc_le _ hpc
    | skipNeReg x y => cases h; exact State.skipIf_pc_le _ hpc
    | skipKey x =>
      obtain ⟨k, -, he⟩ := exec_skipKey_of_ownError_none hok
      cases he.symm.trans h
      exact State.skipIf_pc_le (s := s.clearKey k) _ hpc
    | skipNotKey x =>
      obtain ⟨k, -, he⟩ := exec_skipNotKey_of_ownError_none hok
      cases he.symm.trans h
      exact State.skipIf_pc_le (s := s.clearKey k) _ hpc
    | _ => simp [mayWrite] at hi
  · rw [show t.pc = s.pc from (exec_frame hok h).2 .pc hi]
    omega

/-- R102: the post-fetch `pc` of a fetch that succeeds is at most 0x1000. -/
theorem State.fetchable.afterFetch_pc_le {s : State} (h : s.fetchable) : s.afterFetch.pc.toNat ≤ 0x1000 := by
  have hpc := h.1
  unfold Config.memSize at hpc
  show (s.pc + 2).toNat ≤ 0x1000
  rw [BitVec.toNat_add, show (2 : Word).toNat = 2 from rfl]
  omega

/-! ### The records of the fatal errors -/

/-- R102, R244: the record of a failed fetch. -/
theorem recordFits_fetch {s : State} {d : Nat} (h : s.fetch = .error d) :
    RecordFits ⟨.memoryOutOfRange, s.pc, none, some d⟩ (s.beginStep.raise .memoryOutOfRange s.pc none (some d)) where
  notImage := nofun
  fetchFailed _ := ⟨rfl, rfl⟩
  wordFetched w hw := by cases hw
  illegalWord w hw := by cases hw
  detailGiven := by simp
  badAddress _ d' hd := by cases hd; exact State.badAddress_of_fetch h
  badKey hk := by cases hk

/-- R241: the record of an illegal word. -/
theorem recordFits_decode {s : State} {e : DecodeError} (h : decode s.nextWord = .error e) :
    RecordFits ⟨.decodeFailure, s.pc, some s.nextWord, none⟩
      (s.afterFetch.raise .decodeFailure s.pc (some s.nextWord) none) where
  notImage := nofun
  fetchFailed hw := by cases hw
  wordFetched w _ := rfl
  illegalWord w hw := by cases hw; simp [legalWord_of_decode_error h]
  detailGiven := by simp
  badAddress hk := by cases hk
  badKey hk := by cases hk

/-- R247: the record of an error an instruction raises itself. -/
theorem recordFits_ownError {i : Instr} {s s' : State} {kind : ErrorKind} {detail : Option Nat}
    (h : ownError i s' = some (kind, detail)) :
    RecordFits ⟨kind, s.pc, some (encode i), detail⟩ (s.afterFetch.raise kind s.pc (some (encode i)) detail) := by
  have hkind := ownError_cases h
  exact
    { notImage := by obtain ⟨rfl | rfl, -⟩ | ⟨rfl, -⟩ | ⟨rfl, -⟩ := hkind <;> simp
      fetchFailed := nofun
      wordFetched := fun _ _ => rfl
      illegalWord := fun w hw => by
        cases hw
        rw [legalWord_encode]
        obtain ⟨rfl | rfl, -⟩ | ⟨rfl, -⟩ | ⟨rfl, -⟩ := hkind <;> simp
      detailGiven := by
        obtain ⟨rfl | rfl, rfl⟩ | ⟨rfl, d, rfl, -⟩ | ⟨rfl, d, rfl, -⟩ := hkind <;> simp
      badAddress := by
        rintro rfl d rfl
        exact .inl (by simpa using hkind)
      badKey := by
        rintro rfl d rfl
        simpa using hkind }

/-! ### The invariant over one step -/

/-- A fatal step keeps the invariant: it changes `Status`, `Redraw` and `pc` alone. -/
theorem State.Inv.of_fatal {s t : State} {e : ErrorRecord} (hs : s.Inv) (hen : s.enabled)
    (hf : Frame [.status, .redraw, .pc] s t) (hst : t.status = .faulted e) (hredraw : t.redraw = false)
    (hpc : t.pc.toNat ≤ 0x10FE) (hrec : RecordFits e t) : t.Inv := by
  have hmem : t.mem = s.mem := hf.2 .mem (by decide)
  have hstack : t.sp = s.sp ∧ t.stack = s.stack := hf.2 .stack (by decide)
  have hwait : t.waiting = s.waiting ∧ t.waitReg = s.waitReg := hf.2 .wait (by decide)
  have htone : t.tone = s.tone := hf.2 .tone (by decide)
  have hsound : t.st = s.st := hf.2 .st (by decide)
  exact
    { memWf := hmem ▸ hs.memWf
      pcBound := hpc
      stackBound := hstack.2 ▸ hs.stackBound
      readyPc := fun h => by rw [hst] at h; cases h
      waitingRuns := fun h => by rw [hwait.1, hen.2] at h; cases h
      faultedRedraw := fun _ => hredraw
      toneSilent := by rw [htone, hsound]; exact hs.toneSilent
      record := fun e' h => by rw [hst] at h; cases h; exact hrec }

/-- A completed step keeps the invariant: bounds and memory by the execute phase, `Tone` by the tick. -/
theorem State.Inv.of_completes {i : Instr} {s u : State} (hs : s.Inv) (hfetch : s.fetchable) (hc : Completes i s u) :
    u.timerTick.Inv := by
  have htick := frame_timerTick u
  have hpc := hfetch.afterFetch_pc_le
  have hstatus : u.timerTick.status = .running := by rw [State.timerTick_status, hc.status]
  have hmem : u.timerTick.mem = u.mem := htick.2 .mem (by decide)
  have hpceq : u.timerTick.pc = u.pc := htick.2 .pc (by decide)
  have hstack : u.timerTick.sp = u.sp ∧ u.timerTick.stack = u.stack := htick.2 .stack (by decide)
  exact
    { memWf := by rw [hmem]; exact exec_memWf hc.passes hc.executed hs.memWf
      pcBound := by rw [hpceq]; exact exec_pc_le hc.passes hc.executed hpc hs.stackBound
      stackBound := by rw [hstack.2]; exact exec_stack_le hc.passes hc.executed hpc hs.stackBound
      readyPc := fun h => by rw [hstatus] at h; cases h
      waitingRuns := fun _ => hstatus
      faultedRedraw := fun h => by rw [hstatus] at h; cases h
      toneSilent := fun h => by
        rw [State.timerTick_eq] at h ⊢
        have hone : u.st = 1 := of_decide_eq_true h
        simp [hone]
      record := fun e h => by rw [hstatus] at h; cases h }

/-- Settles O20: the three fatal outcomes by their records, the completed one by its execute phase and its tick. -/
theorem everyStepKeepsTheInvariant : Obligations.EveryStepKeepsTheInvariant := by
  intro s t hs h
  obtain ⟨hen, ⟨d, hf, rfl⟩ | ⟨hfetch, hrest⟩⟩ := step_cases h
  · exact hs.of_fatal hen ((frame_beginStep s).trans (frame_raise _ _ _ _ _)) rfl rfl hs.pcBound (recordFits_fetch hf)
  · have hpc : s.afterFetch.pc.toNat ≤ 0x10FE := hfetch.afterFetch_pc_le.trans (by decide)
    obtain ⟨e, hd, rfl⟩ | ⟨i, kind, detail, -, ho, rfl⟩ | ⟨i, u, hc, rfl⟩ := hrest
    · exact hs.of_fatal hen ((frame_afterFetch s).trans (frame_raise _ _ _ _ _)) rfl rfl hpc (recordFits_decode hd)
    · exact hs.of_fatal hen ((frame_afterFetch s).trans (frame_raise _ _ _ _ _)) rfl rfl hpc (recordFits_ownError ho)
    · exact hs.of_completes hfetch hc

/-! ### The invariant at construction -/

/-- The machine after construction meets the invariant. -/
theorem State.inv_construct (p : Config.Params) : (State.construct p).Inv where
  memWf := Memory.writeBlock_wf _ (by simp [Config.memSize]) Memory.wf_nil
  pcBound := by rw [show (State.construct p).pc = 0x200 from rfl]; decide
  stackBound k := by rw [State.stack_construct]; decide
  readyPc _ := rfl
  waitingRuns h := by cases h
  faultedRedraw _ := rfl
  toneSilent _ := rfl
  record e h := by cases h

/-- Settles O19: construction for every choice, and `State.reset` as construction with the defaults. -/
theorem resetMeetsTheInvariant : Obligations.ResetMeetsTheInvariant :=
  ⟨State.construct_defaultParams ▸ State.inv_construct Config.defaultParams, State.inv_construct⟩

/-! ### After a fatal error -/

/-- D15: no step is taken after a fatal error, so the host's call leaves the state. -/
theorem State.stepAnswer_of_faulted {s : State} {e : ErrorRecord} (h : s.status = .faulted e) : s.stepAnswer.state = s := by
  have hstep : step s = .fault (.stepAfterFatalError e) := by simp [step, stepOrStop, stepBlocked, h]
  simp [State.stepAnswer, hstep]

/-- D19: no image is loaded outside `Ready`. -/
theorem State.load_of_not_ready {s : State} (h : s.status ≠ .ready) (bytes : List Byte) :
    s.load bytes = { reply := .notReady, state := s } := if_pos h

/-- D12: no key is delivered where no wait is pending. -/
theorem State.deliverKey_of_not_waiting {s : State} (h : s.waiting = false) (k : Nat) :
    s.deliverKey k = { reply := .noWaitPending, state := s } := if_pos h

/-- R114: a merge changes the latches alone. -/
theorem State.mergeKeyState_keys (s : State) (pressed : Vector Bool 16) :
    { s.mergeKeyState pressed with keys := s.keys } = s := by
  cases s; rfl

/-- By the invariant a faulted engine waits for nothing. -/
theorem State.Inv.not_waiting_of_faulted {s : State} {e : ErrorRecord} (hs : s.Inv) (h : s.status = .faulted e) :
    s.waiting = false := by
  by_contra hw
  have hrun := hs.waitingRuns (Bool.eq_true_of_not_eq_false hw)
  rw [h] at hrun
  cases hrun

/-- Settles O59: one transaction after the other; the wait that `deliver_key` needs is excluded by the invariant. -/
theorem faultedIsForGood : Obligations.FaultedIsForGood := by
  intro a s e hs he
  cases a with
  | load bytes =>
    have hready : s.status ≠ .ready := by rw [he]; nofun
    rw [transact, State.load_of_not_ready hready]
  | step => rw [transact, State.stepAnswer_of_faulted he]
  | deliverKey k => rw [transact, State.deliverKey_of_not_waiting (hs.not_waiting_of_faulted he)]
  | mergeKeyState pressed => exact State.mergeKeyState_keys s pressed

end Sys2Proof.Machine
end

section
/-!
PROOFS. Noninterference of the sound timer (spec/10_state.md R37, 60_exceptions.md R257): two runs of a step from states that differ in
`ST` and `Tone` alone end in states that differ in `ST` and `Tone` alone.
-/

namespace Sys2Proof.Machine

/-- The state with other values of the sound timer and the tone. -/
def State.withSound (s : State) (st : Byte) (tone : Bool) : State := { s with st := st, tone := tone }

/-- The states agree in everything but `ST` and `Tone`. -/
def AgreeButSound (s t : State) : Prop := s.withSound t.st t.tone = t

/-- Agreement is having the other state's values of `ST` and `Tone` put in. -/
theorem AgreeButSound.exists_withSound {s t : State} (h : AgreeButSound s t) : ∃ st tone, s = t.withSound st tone :=
  ⟨s.st, s.tone, by rw [← h]; cases s; rfl⟩

/-- The own check of an instruction reads neither. -/
theorem ownError_withSound (i : Instr) (s : State) (st : Byte) (tone : Bool) :
    ownError i (s.withSound st tone) = ownError i s := by cases i <;> rfl

/-- A run of registers is written alike in both. -/
theorem State.setRegsFrom_withSound (s : State) (k : Nat) (bs : List Byte) (st : Byte) (tone : Bool) :
    (s.withSound st tone).setRegsFrom k bs = (s.setRegsFrom k bs).withSound st tone := by
  induction bs generalizing s k with
  | nil => rfl
  | cons b bs ih => exact ih (s.setReg (BitVec.ofNat 4 k) b) (k + 1)

/-- A skip is taken alike in both. -/
theorem AgreeButSound.skipIf {s : State} (taken : Bool) (st : Byte) (tone : Bool) :
    AgreeButSound ((s.withSound st tone).skipIf taken) (s.skipIf taken) := by
  cases taken <;> rfl

/-- The tick of agreeing states agrees. -/
theorem AgreeButSound.timerTick {s t : State} (h : AgreeButSound s t) : AgreeButSound s.timerTick t.timerTick := by
  obtain ⟨st, tone, rfl⟩ := h.exists_withSound
  rw [State.timerTick_eq, State.timerTick_eq]
  cases t; rfl

/-- Agreeing execute phases end in agreeing steps: both fatal, or both ticked. -/
theorem AgreeButSound.finish {s t : State} (h : AgreeButSound s t) :
    AgreeButSound (if s.status.isFaulted then s else s.timerTick) (if t.status.isFaulted then t else t.timerTick) := by
  have hstatus : s.status = t.status := by rw [← h]; rfl
  rw [hstatus]
  split
  · exact h
  · exact h.timerTick

/-! ### A step from its phases -/

/-- R102: an enabled step whose fetch fails. -/
theorem step_of_fetch_error {s : State} {d : Nat} (hb : stepBlocked s = none) (hf : s.fetch = .error d) :
    step s = .next (s.beginStep.raise .memoryOutOfRange s.pc none (some d)) := by
  have hf' : s.beginStep.fetch = .error d := hf
  simp [step, stepOrStop, hb, cycle, hf']

/-- R103: an enabled step that fetches an illegal word. -/
theorem step_of_decode_error {s : State} {w : Word} {e : DecodeError} (hb : stepBlocked s = none) (hf : s.fetch = .ok w)
    (hd : decode w = .error e) :
    step s = .next (s.beginStep.advance.raise .decodeFailure s.beginStep.advance.fetchAddr (some w) none) := by
  have hf' : s.beginStep.fetch = .ok w := hf
  simp [step, stepOrStop, hb, cycle, hf', decodeExecute, hd]

/-! ### Noninterference -/

/-- R37: no execute phase reads the sound timer or the tone. -/
theorem exec_withSound {i : Instr} {s t : State} (st : Byte) (tone : Bool) (h : exec i s = .next t) :
    ∃ u, exec i (s.withSound st tone) = .next u ∧ AgreeButSound u t := by
  cases hw : ownError i s with
  | some e =>
    have hw' : ownError i (s.withSound st tone) = some e := (ownError_withSound i s st tone).trans hw
    cases (exec_of_ownError hw).symm.trans h
    exact ⟨_, exec_of_ownError hw', rfl⟩
  | none =>
    have hw' : ownError i (s.withSound st tone) = none := (ownError_withSound i s st tone).trans hw
    cases i with
    | ret =>
      obtain ⟨hs, he⟩ := exec_ret_of_ownError_none hw
      obtain ⟨hs', he'⟩ := exec_ret_of_ownError_none hw'
      cases he.symm.trans h
      exact ⟨_, he', rfl⟩
    | call nnn =>
      obtain ⟨hs, he⟩ := exec_call_of_ownError_none hw
      obtain ⟨hs', he'⟩ := exec_call_of_ownError_none hw'
      cases he.symm.trans h
      exact ⟨_, he', rfl⟩
    | draw x y n =>
      cases (exec_draw_of_ownError_none hw).symm.trans h
      exact ⟨_, exec_draw_of_ownError_none hw', rfl⟩
    | storeBcd x =>
      cases (exec_storeBcd_of_ownError_none hw).symm.trans h
      exact ⟨_, exec_storeBcd_of_ownError_none hw', rfl⟩
    | regDump x =>
      cases (exec_regDump_of_ownError_none hw).symm.trans h
      exact ⟨_, exec_regDump_of_ownError_none hw', rfl⟩
    | regLoad x =>
      cases (exec_regLoad_of_ownError_none hw).symm.trans h
      refine ⟨_, exec_regLoad_of_ownError_none hw', ?_⟩
      rw [State.setRegsFrom_withSound]
      exact rfl
    | skipKey x =>
      obtain ⟨k, hk, he⟩ := exec_skipKey_of_ownError_none hw
      obtain ⟨k', hk', he'⟩ := exec_skipKey_of_ownError_none hw'
      obtain rfl : k = k' := Option.some.inj (hk.symm.trans hk')
      cases he.symm.trans h
      exact ⟨_, he', .skipIf (s := s.clearKey k) _ st tone⟩
    | skipNotKey x =>
      obtain ⟨k, hk, he⟩ := exec_skipNotKey_of_ownError_none hw
      obtain ⟨k', hk', he'⟩ := exec_skipNotKey_of_ownError_none hw'
      obtain rfl : k = k' := Option.some.inj (hk.symm.trans hk')
      cases he.symm.trans h
      exact ⟨_, he', .skipIf (s := s.clearKey k) _ st tone⟩
    | skipEqConst x nn => cases h; exact ⟨_, rfl, .skipIf _ st tone⟩
    | skipNeConst x nn => cases h; exact ⟨_, rfl, .skipIf _ st tone⟩
    | skipEqReg x y => cases h; exact ⟨_, rfl, .skipIf _ st tone⟩
    | skipNeReg x y => cases h; exact ⟨_, rfl, .skipIf _ st tone⟩
    | _ => cases h; exact ⟨_, rfl, rfl⟩

/-- Settles O18: whether a step is enabled, what it fetches and how that decodes read neither `ST` nor `Tone`; the execute phase and the
tick keep the agreement. -/
theorem soundTimerIsSeenOnlyThroughTone : Obligations.SoundTimerIsSeenOnlyThroughTone := by
  intro s t st tone h
  show ∃ u, step (s.withSound st tone) = .next u ∧ AgreeButSound u t
  obtain ⟨hb, ⟨d, hf, rfl⟩ | ⟨w, hf, ⟨e, hd, rfl⟩ | ⟨i, v, hd, hx, rfl⟩⟩⟩ := step_next_cases h
  · exact ⟨_, step_of_fetch_error hb hf, rfl⟩
  · exact ⟨_, step_of_decode_error hb hf hd, rfl⟩
  · obtain ⟨u, hu, hagree⟩ := exec_withSound st tone hx
    exact ⟨_, step_of_exec hb hf hd hu, hagree.finish⟩

end Sys2Proof.Machine
end

section
/-!
PROOFS. The host's transactions keep the machine's invariant (spec/20_memory.md R61, 40_cycle.md R110 to R114): `step` by the invariant of one
step, each of the others by the part it writes.
-/

namespace Sys2Proof.Machine

/-- R111: an image that `load` takes fits above 0x200, and only an engine in `Ready` takes one. -/
theorem State.Inv.load {s : State} (hs : s.Inv) (bytes : List Byte) : (s.load bytes).state.Inv := by
  unfold State.load
  split_ifs with hready hlong
  · exact hs
  · exact hs
  · have hfit : Config.progBase + bytes.length ≤ Config.memSize := by
      unfold Config.maxImage at hlong
      unfold Config.progBase Config.memSize
      omega
    exact { hs with
      memWf := Memory.writeBlock_wf bytes hfit hs.memWf
      record := fun e he => by cases (not_not.1 hready).symm.trans he }

/-- R113: a key is delivered to a running engine alone, and writes a register and the wait flag. -/
theorem State.Inv.deliverKey {s : State} (hs : s.Inv) (k : Nat) : (s.deliverKey k).state.Inv := by
  unfold State.deliverKey
  split_ifs with hwait hindex
  · exact hs
  · exact hs
  · have hrun : s.status = .running := hs.waitingRuns (Bool.eq_true_of_not_eq_false hwait)
    exact { hs with
      waitingRuns := nofun
      record := fun e he => by cases hrun.symm.trans he }

/-- The invariant says nothing of the latches. -/
theorem State.Inv.setKeys {s : State} (hs : s.Inv) (keys : Vector Bool 16) : ({ s with keys := keys } : State).Inv :=
  { hs with record := fun e he => { hs.record e he with } }

/-- R110: a step that is taken keeps the invariant; where none is enabled the state stays. -/
theorem State.Inv.stepAnswer {s : State} (hs : s.Inv) : s.stepAnswer.state.Inv := by
  unfold State.stepAnswer
  cases hstep : step s with
  | next t => exact everyStepKeepsTheInvariant s t hs hstep
  | fault f => exact hs
  | refused r => exact hs

/-- Settles O21: one transaction after the other. -/
theorem everyTransactionKeepsTheInvariant : Obligations.EveryTransactionKeepsTheInvariant := by
  intro a s hs
  cases a with
  | load bytes => exact hs.load bytes
  | step => exact hs.stepAnswer
  | deliverKey k => exact hs.deliverKey k
  | mergeKeyState pressed => exact hs.setKeys _

end Sys2Proof.Machine
end

section
/-!
PROOFS. The canonical form of memory (spec/20_memory.md R50, log 23): the listed cells are exactly the bytes that differ from what their
unlisted addresses read as, so a memory is determined by its reads.
-/

namespace Sys2Proof.Machine

/-- With addresses strictly rising, a listed cell is what its address reads as. -/
theorem Memory.read_of_mem {m : Memory} {c : Host.Cell} (hm : m.Pairwise (fun c d => c.1 < d.1)) (hc : c ∈ m) :
    Memory.read m c.1 = c.2 := by
  induction m with
  | nil => cases hc
  | cons d m ih =>
    obtain ⟨hd, hm⟩ := List.pairwise_cons.1 hm
    obtain rfl | hc := List.mem_cons.1 hc
    · exact if_pos rfl
    · exact (if_neg (hd c hc).ne).trans (ih hm hc)

/-- An address that does not read as an unlisted one would is listed. -/
theorem Memory.mem_of_read_ne {m : Memory} {a : Nat} (h : Memory.read m a ≠ Memory.resetByte a) :
    (a, Memory.read m a) ∈ m := by
  induction m with
  | nil => exact absurd rfl h
  | cons d m ih =>
    obtain ⟨k, b⟩ := d
    by_cases hk : k = a
    · simp [Memory.read, hk]
    · simp only [Memory.read, if_neg hk] at h ⊢
      exact List.mem_cons_of_mem _ (ih h)

/-- The cells a canonical memory lists, by its reads. -/
theorem Memory.wf.mem_iff {m : Memory} (hm : Memory.wf m) (c : Host.Cell) :
    c ∈ m ↔ Memory.read m c.1 = c.2 ∧ c.2 ≠ Memory.resetByte c.1 := by
  constructor
  · exact fun hc => ⟨Memory.read_of_mem hm.1 hc, (hm.2 c hc).2⟩
  · rintro ⟨hread, hne⟩
    have hlisted := Memory.mem_of_read_ne (hread ▸ hne)
    rwa [hread] at hlisted

/-- A canonical memory lists no cell twice. -/
theorem Memory.wf.nodup {m : Memory} (hm : Memory.wf m) : m.Nodup :=
  hm.1.imp fun hlt heq => hlt.ne (congrArg Prod.fst heq)

/-- Settles O22: equal reads list the same cells, and a list in strictly rising order is determined by its members. -/
theorem equalReadsMeanEqualMemories : Obligations.EqualReadsMeanEqualMemories := by
  intro m m' hm hm' hread
  have hperm : m.Perm m' := (List.perm_ext_iff_of_nodup hm.nodup hm'.nodup).2 fun c => by
    rw [hm.mem_iff, hm'.mem_iff, hread]
  exact hperm.eq_of_pairwise (fun c d _ _ hlt hgt => absurd hlt hgt.asymm) hm.1 hm'.1

end Sys2Proof.Machine
end

section
/-!
PROOFS. The decoder answers legal words alone (spec/30_encoding.md R80, R82): a word that decodes is the word of its instruction.
-/

namespace Sys2Proof

/-- A word is its own top nibble and address in format FA. -/
theorem wordFA_of_opField {w : Word} {op : Nibble} (hop : (opField w).toNat = op.toNat) : wordFA op (nnnField w) = w := by
  rw [← BitVec.eq_of_toNat_eq hop, wordFA_fields]

/-- A word is its own top nibble, register and low byte in format FXN. -/
theorem wordFXN_of_opField {w : Word} {op : Nibble} (hop : (opField w).toNat = op.toNat) :
    wordFXN op (xField w) (nnField w) = w := by
  rw [← BitVec.eq_of_toNat_eq hop, wordFXN_fields]

/-- A word is its own top nibble, registers and low nibble in format FXY. -/
theorem wordFXY_of_opField {w : Word} {op : Nibble} (hop : (opField w).toNat = op.toNat) :
    wordFXY op (xField w) (yField w) (nField w) = w := by
  rw [← BitVec.eq_of_toNat_eq hop, wordFXY_fields]

/-- R75: family 0 decodes exactly its two words. -/
theorem encode_of_decodeFamily0 {w : Word} {i : Instr} (h : decodeFamily0 w = .ok i) : encode i = w := by
  unfold decodeFamily0 at h
  split_ifs at h with hclear hret
  · cases h; exact hclear.symm
  · cases h; exact hret.symm

/-- R77: family 8 decodes to an instruction of its sub-opcode. -/
theorem encode_of_decodeFamily8 {x y n : Nibble} {i : Instr} (h : decodeFamily8 x y n = .ok i) :
    encode i = wordFXY 0x8 x y n := by
  unfold decodeFamily8 at h
  split at h <;> cases h <;> exact congrArg (wordFXY 0x8 x y) (BitVec.eq_of_toNat_eq ‹BitVec.toNat _ = _›.symm)

/-- R78: family E decodes to an instruction of its low byte. -/
theorem encode_of_decodeFamilyE {x : Nibble} {f : Byte} {i : Instr} (h : decodeFamilyE x f = .ok i) :
    encode i = wordFXN 0xE x f := by
  unfold decodeFamilyE at h
  split at h <;> cases h <;> exact congrArg (wordFXN 0xE x) (BitVec.eq_of_toNat_eq ‹BitVec.toNat _ = _›.symm)

/-- R79: family F decodes to an instruction of its low byte. -/
theorem encode_of_decodeFamilyF {x : Nibble} {f : Byte} {i : Instr} (h : decodeFamilyF x f = .ok i) :
    encode i = wordFXN 0xF x f := by
  unfold decodeFamilyF at h
  split at h <;> cases h <;> exact congrArg (wordFXN 0xF x) (BitVec.eq_of_toNat_eq ‹BitVec.toNat _ = _›.symm)

/-- R74, R80: a word that decodes is the word of the instruction it decodes to. -/
theorem encode_of_decode {w : Word} {i : Instr} (h : decode w = .ok i) : encode i = w := by
  unfold decode at h
  split at h
  case h_1 => exact encode_of_decodeFamily0 h
  case h_2 hop | h_3 hop | h_11 hop | h_12 hop => cases h; exact wordFA_of_opField hop
  case h_4 hop | h_5 hop | h_7 hop | h_8 hop | h_13 hop => cases h; exact wordFXN_of_opField hop
  case h_6 hop | h_10 hop =>
    split_ifs at h with hn
    cases h
    exact (congrArg (wordFXY _ _ _) hn.symm).trans (wordFXY_of_opField hop)
  case h_9 hop => exact (encode_of_decodeFamily8 h).trans (wordFXY_of_opField hop)
  case h_14 hop => cases h; exact wordFXY_of_opField hop
  case h_15 hop => exact (encode_of_decodeFamilyE h).trans (wordFXN_of_opField hop)
  case h_16 hop => exact (encode_of_decodeFamilyF h).trans (wordFXN_of_opField hop)
  case h_17 => cases h

/-- R82: a word that no row of the table accepts does not decode. -/
theorem decode_error_of_legalWord {w : Word} (h : legalWord w = false) : ∃ e, decode w = .error e := by
  cases hd : decode w with
  | error e => exact ⟨e, rfl⟩
  | ok i =>
    rw [← encode_of_decode hd, legalWord_encode] at h
    cases h

end Sys2Proof
end

section
/-!
PROOFS. Memory over one step: where a fetch fails (spec/20_memory.md R58), which instructions store and where (R50), a transfer out of range
(R60), and that the next fetch reads what was stored (R63).
-/

namespace Sys2Proof.Machine

/-! ### Fetch -/

/-- R56: a fetch that may succeed answers the big-endian word at `pc`. -/
theorem State.fetchable.fetch_eq {s : State} (h : s.fetchable) : s.fetch = .ok s.nextWord := by
  have hpc := h.1
  unfold Config.memSize at hpc
  rw [State.fetch_eq, if_neg h.2, if_neg (show ¬0xFFF ≤ s.pc.toNat by omega)]
  rfl

/-- R102: a fetch that may succeed advances `pc` without wrapping. -/
theorem State.fetchable.toNat_pc_add_two {s : State} (h : s.fetchable) : (s.pc + 2).toNat = s.pc.toNat + 2 := by
  have hpc := h.1
  unfold Config.memSize at hpc
  rw [BitVec.toNat_add, show (2 : Word).toNat = 2 from rfl]
  omega

/-- Settles O7: the fetch by its three outcomes, the illegal word by the decoder. -/
theorem fetchAndDecodeFailuresAreFatal : Obligations.FetchAndDecodeFailuresAreFatal := by
  intro s hen
  have hb : stepBlocked s = none := (stepBlocked_eq_none_iff s).2 hen
  refine ⟨fun hodd => ?_, fun hodd hpc => ?_, fun hfetch hillegal => ?_⟩
  · exact step_of_fetch_error hb (by rw [State.fetch_eq, if_pos hodd])
  · exact step_of_fetch_error hb (by rw [State.fetch_eq, if_neg hodd, if_pos hpc])
  · obtain ⟨e, he⟩ := decode_error_of_legalWord hillegal
    have hstep := step_of_decode_error hb hfetch.fetch_eq he
    rwa [show s.beginStep.advance = s.afterFetch from rfl, State.fetchAddr_afterFetch] at hstep

/-! ### Stores -/

/-- A byte that a block of writes changes lies in the block. -/
theorem Memory.inside_of_read_writeBlock_ne {m : Memory} {a b : Nat} {bs : List Byte}
    (h : Memory.read (Memory.writeBlock m a bs) b ≠ Memory.read m b) : a ≤ b ∧ b < a + bs.length := by
  by_contra hout
  exact h (Memory.read_writeBlock_outside (by omega))

/-- R183, R184: an execute phase that changes a byte of memory is a Store-BCD or a Register-dump, and the byte is in its block. -/
theorem exec_read_ne {i : Instr} {s t : State} {a : Nat} (hok : ownError i s = none) (h : exec i s = .next t)
    (hne : Memory.read t.mem a ≠ Memory.read s.mem a) :
    (∃ x, i = .storeBcd x ∧ s.I.toNat ≤ a ∧ a < s.I.toNat + 3) ∨
    (∃ x, i = .regDump x ∧ s.I.toNat ≤ a ∧ a < s.I.toNat + (x.toNat + 1)) := by
  by_cases hi : Component.mem ∈ mayWrite i
  · cases i with
    | storeBcd x =>
      cases (exec_storeBcd_of_ownError_none hok).symm.trans h
      exact .inl ⟨x, rfl, Memory.inside_of_read_writeBlock_ne hne⟩
    | regDump x =>
      cases (exec_regDump_of_ownError_none hok).symm.trans h
      have hin := Memory.inside_of_read_writeBlock_ne hne
      rw [State.length_regsUpTo] at hin
      exact .inr ⟨x, rfl, hin⟩
    | _ => simp [mayWrite] at hi
  · exact absurd (((exec_frame hok h).2 .mem hi).same a) hne

/-- Settles O17: a fatal step stores nothing, a completed one what its execute phase stored. -/
theorem onlyBcdAndDumpChangeMemory : Obligations.OnlyBcdAndDumpChangeMemory := by
  intro s t h a hne
  obtain ⟨-, -, hframe⟩ | ⟨i, u, hc, rfl⟩ := step_fatal_or_completes h
  · exact absurd ((hframe.2 .mem (by decide)).same a) hne
  · rw [show u.timerTick.mem = u.mem from (frame_timerTick u).2 .mem (by decide)] at hne
    obtain ⟨x, rfl, hin⟩ | ⟨x, rfl, hin⟩ := exec_read_ne hc.passes hc.executed hne
    · exact .inl ⟨x, hc.decoded, hin⟩
    · exact .inr ⟨x, hc.decoded, hin⟩

/-- Settles O40: each of the three transfers has the block check for its own, which fails. -/
theorem transfersOutOfRangeAreFatal : Obligations.TransfersOutOfRangeAreFatal := by
  intro i x count s hi hrange
  have hown : ownError i s = some (.memoryOutOfRange, some (max s.I.toNat 4096)) := by
    obtain ⟨rfl, rfl⟩ | ⟨rfl, rfl⟩ | ⟨rfl, rfl⟩ := hi <;> exact if_pos ⟨Nat.succ_pos _, hrange⟩
  exact ⟨_, exec_of_ownError hown, rfl, (frame_raise s _ _ _ _).onlyChanges⟩

/-! ### The next fetch -/

/-- A block inside memory passes its check. -/
theorem blockError_eq_none {start count : Nat} (h : start + count ≤ 4096) : blockError start count = none :=
  if_neg (by omega)

/-- R100: an enabled step whose instruction passes its check completes with the tick. -/
theorem Completes.step_eq {i : Instr} {s u : State} (hc : Completes i s u) (hen : s.enabled) (hfetch : s.fetchable) :
    step s = .next u.timerTick := by
  have hstep := step_of_exec ((stepBlocked_eq_none_iff s).2 hen) hfetch.fetch_eq hc.decoded hc.executed
  rwa [hc.status] at hstep

/-- R63: after an instruction that leaves `pc`, the next fetch reads memory as the execute phase left it. -/
theorem Completes.next_fetch {i : Instr} {s u : State} (hc : Completes i s u) (hen : s.enabled) (hfetch : s.fetchable)
    (hnext : s.afterFetch.fetchable) (hi : Component.pc ∉ mayWrite i) :
    ∃ t, step s = .next t ∧ t.pc = s.pc + 2 ∧
      t.fetch = .ok (Memory.read u.mem (s.pc.toNat + 2) ++ Memory.read u.mem (s.pc.toNat + 3)) := by
  have hpc : u.pc = s.pc + 2 := hc.frame.2 .pc hi
  have hfetchable : u.fetchable := by
    unfold State.fetchable
    rw [hc.frame.1, hpc]
    exact hnext
  refine ⟨_, hc.step_eq hen hfetch, ?_, ?_⟩
  · rw [← hpc]
    exact (frame_timerTick u).2 .pc (by decide)
  · rw [State.timerTick_fetch, hfetchable.fetch_eq, State.nextWord, hpc, hfetch.toNat_pc_add_two]

/-- Settles O42: the stored bytes are those of `dumpedByte` and `bcdByte`, and neither instruction writes `pc`. -/
theorem dumpedBytesAreFetchedNext : Obligations.DumpedBytesAreFetchedNext := by
  intro x s hnext
  refine ⟨fun ⟨hen, hfetch, hdec⟩ hrange => ?_, fun ⟨hen, hfetch, hdec⟩ hrange => ?_⟩
  · have hok : ownError (.regDump x) s.afterFetch = none := blockError_eq_none hrange
    have hc : Completes (.regDump x) s _ := ⟨hdec, hok, exec_regDump_of_ownError_none hok⟩
    have hstored := hc.next_fetch hen hfetch hnext (by simp [mayWrite])
    rwa [State.advanceI_mem, read_dumped, read_dumped] at hstored
  · have hok : ownError (.storeBcd x) s.afterFetch = none := blockError_eq_none (Nat.succ_le_of_lt hrange)
    have hc : Completes (.storeBcd x) s _ := ⟨hdec, hok, exec_storeBcd_of_ownError_none hok⟩
    have hstored := hc.next_fetch hen hfetch hnext (by simp [mayWrite])
    rwa [read_bcd, read_bcd] at hstored

end Sys2Proof.Machine
end

section
/-!
PROOFS. The encoding (spec/30_encoding.md R70 to R82): an instruction decodes from its word and from its bytes, the opcode table reads a
word as the instruction it encodes and as no other, and the sub-opcodes of family 8.
-/

namespace Sys2Proof

/-! ### Decoding an encoded instruction -/

/-- R77: a word of family 8 is decoded by its sub-opcode. -/
theorem decode_family8 (x y n : Nibble) : decode (wordFXY 0x8 x y n) = decodeFamily8 x y n := by
  simp [decode]

/-- R78: a word of family E is decoded by its low byte. -/
theorem decode_familyE (x : Nibble) (f : Byte) : decode (wordFXN 0xE x f) = decodeFamilyE x f := by
  simp [decode]

/-- R79: a word of family F is decoded by its low byte. -/
theorem decode_familyF (x : Nibble) (f : Byte) : decode (wordFXN 0xF x f) = decodeFamilyF x f := by
  simp [decode]

/-- R74, R80: the word of an instruction decodes to it. -/
theorem decode_encode (i : Instr) : decode (encode i) = .ok i := by
  cases i with
  | clear | ret => rfl
  | jump | call | setAddress | jumpPlus | skipEqConst | skipNeConst | setConst | addConst | random | skipEqReg | skipNeReg
  | draw => simp [encode, decode]
  | copy x y | orReg x y | andReg x y | xorReg x y | addReg x y | subReg x y | shiftRight x y | subRegRev x y | shiftLeft x y =>
    exact decode_family8 x y _
  | skipKey x | skipNotKey x => exact decode_familyE x _
  | getDelay x | getKey x | setDelay x | setSound x | addAddress x | fontSprite x | storeBcd x | regDump x | regLoad x =>
    exact decode_familyF x _

/-- R70, R71: the two bytes of an instruction decode to it, whatever follows them. -/
theorem decodeBytes_encodeBytes (i : Instr) (rest : List Byte) : decodeBytes (encodeBytes i ++ rest) = .ok (i, rest) := by
  change decodeBytes (highByte (encode i) :: lowByte (encode i) :: rest) = _
  rw [decodeBytes_cons, wordOfBytes_bytes, decode_encode]
  rfl

/-- The decoder answers an instruction on its own word alone. -/
theorem decode_eq_ok_iff {w : Word} {i : Instr} : decode w = .ok i ↔ encode i = w :=
  ⟨encode_of_decode, fun h => h ▸ decode_encode i⟩

/-- Settles O2: the round trip of the word, and of its bytes through the word. -/
theorem decodeOfEncodeIsTheInstruction : Obligations.DecodeOfEncodeIsTheInstruction :=
  fun i => ⟨decode_encode i, decodeBytes_encodeBytes i⟩

/-- Settles O3, by the families of the decoder. -/
theorem encodeOfDecodeIsTheWord : Obligations.EncodeOfDecodeIsTheWord :=
  fun _ _ => encode_of_decode

/-! ### The operands of a table row -/

/-- An operand laid out as `x` (R70). -/
@[simp] theorem heldBy_x {x : Nibble} {w : Word} : (Operand.mk 8 4 x.toNat).heldBy w = true ↔ xField w = x := by
  simp [Operand.heldBy, ← BitVec.toNat_inj, toNat_xField]

/-- An operand laid out as `y` (R70). -/
@[simp] theorem heldBy_y {y : Nibble} {w : Word} : (Operand.mk 4 4 y.toNat).heldBy w = true ↔ yField w = y := by
  simp [Operand.heldBy, ← BitVec.toNat_inj, toNat_yField]

/-- An operand laid out as `n` (R70). -/
@[simp] theorem heldBy_n {n : Nibble} {w : Word} : (Operand.mk 0 4 n.toNat).heldBy w = true ↔ nField w = n := by
  simp [Operand.heldBy, ← BitVec.toNat_inj, toNat_nField]

/-- An operand laid out as `nn` (R70). -/
@[simp] theorem heldBy_nn {nn : Byte} {w : Word} : (Operand.mk 0 8 nn.toNat).heldBy w = true ↔ nnField w = nn := by
  simp [Operand.heldBy, ← BitVec.toNat_inj, toNat_nnField]

/-- An operand laid out as `nnn` (R70). -/
@[simp] theorem heldBy_nnn {nnn : Addr12} {w : Word} : (Operand.mk 0 12 nnn.toNat).heldBy w = true ↔ nnnField w = nnn := by
  simp [Operand.heldBy, ← BitVec.toNat_inj, toNat_nnnField]

/-- The word of an instruction holds each of its operands. -/
theorem operands_heldBy_encode (i : Instr) : ∀ f ∈ i.operands, f.heldBy (encode i) = true := by
  cases i <;> simp [Instr.operands, encode]

/-! ### The table against the encoder -/

/-- The two conditions under which the table reads a word as an instruction. -/
theorem reads_iff {i : Instr} {w : Word} :
    i.reads w = true ↔ i.row.accepts w = true ∧ ∀ f ∈ i.operands, f.heldBy w = true := by
  simp [Instr.reads]

/-- The word of an instruction is read as it. -/
theorem reads_encode (i : Instr) : i.reads (encode i) = true :=
  reads_iff.2 ⟨(fitsTable i).2, operands_heldBy_encode i⟩

/-- A word in a format FA row, with its operand. -/
theorem wordFA_of_accepts {w : Word} {op : Nibble} {nnn : Addr12}
    (hrow : (OpRow.mk (BitVec.ofNat 16 (op.toNat * 4096)) 0xF000).accepts w = true) (hnnn : nnnField w = nnn) :
    wordFA op nnn = w := by
  rw [← opField_of_accepts_top hrow, ← hnnn, wordFA_fields]

/-- A word in a format FXN row, with its operands. -/
theorem wordFXN_of_accepts {w : Word} {op x : Nibble} {nn : Byte}
    (hrow : (OpRow.mk (BitVec.ofNat 16 (op.toNat * 4096)) 0xF000).accepts w = true) (hx : xField w = x)
    (hnn : nnField w = nn) : wordFXN op x nn = w := by
  rw [← opField_of_accepts_top hrow, ← hx, ← hnn, wordFXN_fields]

/-- A word in a format FX row, with its operand. -/
theorem wordFX_of_accepts {w : Word} {op x : Nibble} {f : Byte}
    (hrow : (OpRow.mk (BitVec.ofNat 16 (op.toNat * 4096 + f.toNat)) 0xF0FF).accepts w = true) (hx : xField w = x) :
    wordFXN op x f = w := by
  obtain ⟨hop, hf⟩ := fields_of_accepts_top_byte hrow
  rw [← hop, ← hx, ← hf, wordFXN_fields]

/-- A word in a format FXY row, with its operands. -/
theorem wordFXY_of_accepts {w : Word} {op x y n : Nibble}
    (hrow : (OpRow.mk (BitVec.ofNat 16 (op.toNat * 4096 + n.toNat)) 0xF00F).accepts w = true) (hx : xField w = x)
    (hy : yField w = y) : wordFXY op x y n = w := by
  obtain ⟨hop, hn⟩ := fields_of_accepts_top_low hrow
  rw [← hop, ← hx, ← hy, ← hn, wordFXY_fields]

/-- A word in a format FXYN row, with its operands. -/
theorem wordFXYN_of_accepts {w : Word} {op x y n : Nibble}
    (hrow : (OpRow.mk (BitVec.ofNat 16 (op.toNat * 4096)) 0xF000).accepts w = true) (hx : xField w = x)
    (hy : yField w = y) (hn : nField w = n) : wordFXY op x y n = w := by
  rw [← opField_of_accepts_top hrow, ← hx, ← hy, ← hn, wordFXY_fields]

/-- A word that the table reads as an instruction is that instruction's word: the row's fixed bits and the operands are all its
fields. -/
theorem encode_of_reads {w : Word} {i : Instr} (h : i.reads w = true) : encode i = w := by
  obtain ⟨hrow, hops⟩ := reads_iff.1 h
  cases i with
  | clear | ret => exact (eq_of_accepts_full hrow).symm
  | jump nnn | call nnn | setAddress nnn | jumpPlus nnn =>
    have hnnn : nnnField w = nnn := by simpa [Instr.operands] using hops
    exact wordFA_of_accepts hrow hnnn
  | skipEqConst x nn | skipNeConst x nn | setConst x nn | addConst x nn | random x nn =>
    obtain ⟨hx, hnn⟩ : xField w = x ∧ nnField w = nn := by simpa [Instr.operands] using hops
    exact wordFXN_of_accepts hrow hx hnn
  | skipEqReg x y | copy x y | orReg x y | andReg x y | xorReg x y | addReg x y | subReg x y | shiftRight x y | subRegRev x y
  | shiftLeft x y | skipNeReg x y =>
    obtain ⟨hx, hy⟩ : xField w = x ∧ yField w = y := by simpa [Instr.operands] using hops
    exact wordFXY_of_accepts hrow hx hy
  | draw x y n =>
    obtain ⟨hx, hy, hn⟩ : xField w = x ∧ yField w = y ∧ nField w = n := by simpa [Instr.operands] using hops
    exact wordFXYN_of_accepts hrow hx hy hn
  | skipKey x | skipNotKey x | getDelay x | getKey x | setDelay x | setSound x | addAddress x | fontSprite x | storeBcd x
  | regDump x | regLoad x =>
    have hx : xField w = x := by simpa [Instr.operands] using hops
    exact wordFX_of_accepts hrow hx

/-- The table reads a word as an instruction exactly if it is that instruction's word. -/
theorem reads_iff_encode_eq {w : Word} {i : Instr} : i.reads w = true ↔ encode i = w :=
  ⟨encode_of_reads, fun h => h ▸ reads_encode i⟩

/-! ### The decoder's one error -/

theorem decodeFamily0_error {w : Word} {e : DecodeError} (h : decodeFamily0 w = .error e) : e = .decodeFailure := by
  unfold decodeFamily0 at h
  split_ifs at h
  cases h
  rfl

theorem decodeFamily8_error {x y n : Nibble} {e : DecodeError} (h : decodeFamily8 x y n = .error e) : e = .decodeFailure := by
  unfold decodeFamily8 at h
  split at h <;> cases h
  rfl

theorem decodeFamilyE_error {x : Nibble} {f : Byte} {e : DecodeError} (h : decodeFamilyE x f = .error e) :
    e = .decodeFailure := by
  unfold decodeFamilyE at h
  split at h <;> cases h
  rfl

theorem decodeFamilyF_error {x : Nibble} {f : Byte} {e : DecodeError} (h : decodeFamilyF x f = .error e) :
    e = .decodeFailure := by
  unfold decodeFamilyF at h
  split at h <;> cases h
  rfl

/-- R80: a whole word is never truncated, so it fails to decode in one way. -/
theorem decode_error {w : Word} {e : DecodeError} (h : decode w = .error e) : e = .decodeFailure := by
  unfold decode at h
  split at h
  case h_1 => exact decodeFamily0_error h
  case h_6 | h_10 =>
    split_ifs at h
    cases h
    rfl
  case h_9 => exact decodeFamily8_error h
  case h_15 => exact decodeFamilyE_error h
  case h_16 => exact decodeFamilyF_error h
  all_goals cases h
  rfl

/-- R82: the decoder fails on exactly the words that no row of the table accepts. -/
theorem decode_eq_decodeFailure_iff {w : Word} : decode w = .error .decodeFailure ↔ legalWord w = false := by
  refine ⟨legalWord_of_decode_error, fun hillegal => ?_⟩
  obtain ⟨e, he⟩ := decode_error_of_legalWord hillegal
  rw [he, decode_error he]

/-- Settles O4: decoder and table both answer an instruction on its own word alone. -/
theorem decodeAgreesWithOpcodeTable : Obligations.DecodeAgreesWithOpcodeTable :=
  ⟨fun _ _ => decode_eq_ok_iff.trans reads_iff_encode_eq.symm, fun _ => decode_eq_decodeFailure_iff⟩

/-! ### Family 8 -/

/-- The sub-opcodes of family 8 (R77). -/
def aluSubOpcodes : List Nibble := [0x0, 0x1, 0x2, 0x3, 0x4, 0x5, 0x6, 0x7, 0xE]

/-- The values of `n` that family 8 leaves out (R77). -/
def aluUnused : List Nibble := [0x8, 0x9, 0xA, 0xB, 0xC, 0xD, 0xF]

theorem mem_aluSubOpcodes_or_aluUnused : ∀ n : Nibble, n ∈ aluSubOpcodes ∨ n ∈ aluUnused := by decide

theorem decodeFamily8_of_mem_aluSubOpcodes (x y : Nibble) {n : Nibble} (h : n ∈ aluSubOpcodes) :
    ∃ i, decodeFamily8 x y n = .ok i := by
  fin_cases h <;> exact ⟨_, rfl⟩

theorem decodeFamily8_of_mem_aluUnused (x y : Nibble) {n : Nibble} (h : n ∈ aluUnused) :
    decodeFamily8 x y n = .error .decodeFailure := by
  fin_cases h <;> rfl

/-- R77: family 8 decodes on exactly its sub-opcodes. -/
theorem exists_decodeFamily8_eq_ok_iff {x y n : Nibble} : (∃ i, decodeFamily8 x y n = .ok i) ↔ n ∈ aluSubOpcodes := by
  refine ⟨fun ⟨i, hi⟩ => ?_, decodeFamily8_of_mem_aluSubOpcodes x y⟩
  refine (mem_aluSubOpcodes_or_aluUnused n).resolve_right fun hunused => ?_
  rw [decodeFamily8_of_mem_aluUnused x y hunused] at hi
  cases hi

/-- Settles O5: the nine sub-opcodes and the seven values left out are all sixteen values of `n`. -/
theorem familyEightHasNineSubOpcodes : Obligations.FamilyEightHasNineSubOpcodes := by
  intro x y n
  rw [show (0x8#4 ++ x ++ y ++ n : Word) = wordFXY 0x8 x y n from rfl, decode_family8]
  exact ⟨exists_decodeFamily8_eq_ok_iff, decodeFamily8_of_mem_aluUnused x y⟩

/-- Settles O1: the decoder runs on each of the words. -/
theorem sampleWordsDecode : Obligations.SampleWordsDecode := by
  unfold Obligations.SampleWordsDecode
  decide

end Sys2Proof
end

section
/-!
PROOFS. The cycle (spec/40_cycle.md R100 to R107, R112): an enabled step always answers, runs the decoded instruction, takes a fatal error
precisely and ticks the timers when it completes; then the host's transactions (R111, R113, R114) and the normal end (R117).
-/

namespace Sys2Proof.Machine

/-! ### Every enabled step answers -/

/-- R104: the execute phase of every instruction answers a next state, by its own check the error of that check or its effect. -/
theorem exec_exists_next (i : Instr) (s : State) : ∃ t, exec i s = .next t := by
  cases hw : ownError i s with
  | some e => exact ⟨_, exec_of_ownError hw⟩
  | none =>
    cases i with
    | ret => exact ⟨_, (exec_ret_of_ownError_none hw).2⟩
    | call nnn => exact ⟨_, (exec_call_of_ownError_none hw).2⟩
    | draw x y n => exact ⟨_, exec_draw_of_ownError_none hw⟩
    | storeBcd x => exact ⟨_, exec_storeBcd_of_ownError_none hw⟩
    | regDump x => exact ⟨_, exec_regDump_of_ownError_none hw⟩
    | regLoad x => exact ⟨_, exec_regLoad_of_ownError_none hw⟩
    | skipKey x =>
      obtain ⟨k, -, he⟩ := exec_skipKey_of_ownError_none hw
      exact ⟨_, he⟩
    | skipNotKey x =>
      obtain ⟨k, -, he⟩ := exec_skipNotKey_of_ownError_none hw
      exact ⟨_, he⟩
    | _ => exact ⟨_, rfl⟩

/-- R101, R112: an enabled step answers a next state, by the outcome of its fetch, its decode and its execute phase. -/
theorem State.enabled.exists_next {s : State} (hen : s.enabled) : ∃ t, step s = .next t := by
  have hb : stepBlocked s = none := (stepBlocked_eq_none_iff s).2 hen
  cases hf : s.fetch with
  | error d => exact ⟨_, step_of_fetch_error hb hf⟩
  | ok w =>
    cases hd : decode w with
    | error e => exact ⟨_, step_of_decode_error hb hf hd⟩
    | ok i =>
      obtain ⟨u, hu⟩ := exec_exists_next i s.beginStep.advance
      exact ⟨_, step_of_exec hb hf hd hu⟩

/-- Settles O9: the step by its phases, the execute phase by the instruction's own check. -/
theorem enabledStepAlwaysAnswers : Obligations.EnabledStepAlwaysAnswers :=
  ⟨fun _ hen => hen.exists_next, exec_exists_next⟩

/-- R100, R105: a step that runs `i` is its execute phase, then the tick unless that raised a fatal error. -/
theorem State.runs.step_eq {s t : State} {i : Instr} (h : s.runs i) (hx : exec i s.afterFetch = .next t) :
    step s = .next (if t.status.isFaulted then t else t.timerTick) := by
  obtain ⟨hen, hfetch, hdec⟩ := h
  exact step_of_exec ((stepBlocked_eq_none_iff s).2 hen) hfetch.fetch_eq hdec hx

/-- Settles O6: the execute phase answers, and its `Status` decides the tick. -/
theorem stepRunsTheDecodedInstruction : Obligations.StepRunsTheDecodedInstruction := by
  intro s i hruns
  obtain ⟨t, ht⟩ := exec_exists_next i s.afterFetch
  refine ⟨t, ht, fun hok => ?_, fun e he => ?_⟩
  · have hn : ¬t.status.isFaulted = true := fun hf => ((Status.isFaulted_iff _).1 hf).elim hok
    rw [hruns.step_eq ht, if_neg hn]
  · rw [hruns.step_eq ht, if_pos ((Status.isFaulted_iff _).2 ⟨e, he⟩)]

/-! ### No step while faulted or waiting -/

/-- A blocked step is the stop that blocks it (log 2). -/
theorem step_of_stepBlocked {s : State} {f : Fault} (h : stepBlocked s = some f) : step s = .fault f := by
  simp [step, stepOrStop, h]

/-- Settles O8: what blocks the step, by `Status`. -/
theorem noStepWhileFaultedOrWaiting : Obligations.NoStepWhileFaultedOrWaiting := by
  refine fun s => ⟨fun e he => step_of_stepBlocked (by simp [stepBlocked, he]), fun hok hw => step_of_stepBlocked ?_⟩
  cases hs : s.status with
  | ready => simp [stepBlocked, hs, hw]
  | running => simp [stepBlocked, hs, hw]
  | faulted e => exact absurd hs (hok e)

/-! ### Fatal steps -/

/-- Settles O10: a failed fetch has no word in its record and leaves `pc`; an illegal word and an instruction's error have one and
leave `pc` two on; a completed step is not faulted. -/
theorem fatalErrorsArePrecise : Obligations.FatalErrorsArePrecise := by
  intro s t e h he
  obtain ⟨-, ⟨d, -, rfl⟩ | ⟨-, ⟨e', -, rfl⟩ | ⟨i, kind, detail, -, -, rfl⟩ | ⟨i, u, hc, rfl⟩⟩⟩ := step_cases h
  · cases he; exact ⟨rfl, rfl⟩
  · cases he; exact ⟨rfl, rfl⟩
  · cases he; exact ⟨rfl, rfl⟩
  · rw [State.timerTick_status, hc.status] at he
    cases he

/-! ### The timers -/

/-- R255: the tick counts `DT` down. -/
theorem State.timerTick_dt (s : State) : s.timerTick.dt = countDown s.dt := by rw [State.timerTick_eq]; rfl

/-- R256: the tick counts `ST` down. -/
theorem State.timerTick_st (s : State) : s.timerTick.st = countDown s.st := by rw [State.timerTick_eq]; rfl

/-- R256: the tick raises `Tone` exactly where it takes `ST` from one to zero. -/
theorem State.timerTick_tone (s : State) : s.timerTick.tone = decide (s.st = 1) := by rw [State.timerTick_eq]

/-- R224: the tick of a completed step finds the value Set-delay wrote, or `DT` as it was before the step. -/
theorem Completes.dt_eq {i : Instr} {s u : State} (h : Completes i s u) : u.dt = delayAtTick i s := by
  cases i with
  | setDelay x => cases h.executed; rfl
  | _ => exact h.frame.2 .dt (by simp [mayWrite])

/-- R225: the tick of a completed step finds the value Set-sound wrote, or `ST` as it was before the step. -/
theorem Completes.st_eq {i : Instr} {s u : State} (h : Completes i s u) : u.st = soundAtTick i s := by
  cases i with
  | setSound x => cases h.executed; rfl
  | _ => exact h.frame.2 .st (by simp [mayWrite])

/-- Settles O11: a fatal step keeps both timers in its frame; a completed one ticks on what its execute phase left. -/
theorem everyCompletedStepCountsTheTimers : Obligations.EveryCompletedStepCountsTheTimers := by
  intro s t h
  obtain ⟨hfault, -, hframe⟩ | ⟨i, u, hc, rfl⟩ := step_fatal_or_completes h
  · exact ⟨fun _ => ⟨hframe.2 .dt (by decide), hframe.2 .st (by decide)⟩, fun hn => by simp [hfault] at hn⟩
  · refine ⟨fun hf => ?_, fun _ j hj => ?_⟩
    · rw [State.timerTick_status, hc.status] at hf
      cases hf
    · obtain rfl : i = j := Except.ok.inj (hc.decoded.symm.trans hj)
      rw [State.timerTick_dt, State.timerTick_st, State.timerTick_tone, hc.dt_eq, hc.st_eq]
      exact ⟨rfl, rfl, decide_eq_true⟩

/-! ### The host's transactions -/

theorem frame_waiting (s : State) (b : Bool) : Frame [.wait] s { s with waiting := b } :=
  ⟨rfl, fun c hc => by cases c <;> simp_all [Keeps]⟩
theorem frame_keys (s : State) (keys : Vector Bool 16) : Frame [.keys] s { s with keys := keys } :=
  ⟨rfl, fun c hc => by cases c <;> simp_all [Keeps]⟩

/-- R111: in `Ready`, an image that fits is copied to 0x200. -/
theorem State.load_of_fits {s : State} {bytes : List Byte} (hready : s.status = .ready) (hfit : bytes.length ≤ 3584) :
    s.load bytes = ⟨.ok, { s with mem := Memory.writeBlock s.mem 0x200 bytes }⟩ := by
  have hlong : ¬Config.maxImage < bytes.length := Nat.not_lt.2 hfit
  rw [State.load, if_neg (not_not.2 hready), if_neg hlong]
  rfl

/-- R246: in `Ready`, a longer image is refused. -/
theorem State.load_of_long {s : State} {bytes : List Byte} (hready : s.status = .ready) (hlong : 3584 < bytes.length) :
    s.load bytes = ⟨.imageTooLarge, s⟩ := by
  rw [State.load, if_neg (not_not.2 hready)]
  exact if_pos hlong

/-- Settles O54: the three outcomes of `load`, the copied bytes by the reads of a written block. -/
theorem loadCopiesTheImage : Obligations.LoadCopiesTheImage := by
  refine fun s bytes => ⟨fun hready hfit => ?_, State.load_of_long, fun hn => State.load_of_not_ready hn bytes⟩
  rw [State.load_of_fits hready hfit]
  exact ⟨rfl, fun i => Memory.read_writeBlock_inside i.isLt, fun a ha => Memory.read_writeBlock_outside ha,
    (frame_mem s _).onlyChanges⟩

/-- R113: with a wait pending, a key that exists is written to the target register. -/
theorem State.deliverKey_of_waiting {s : State} {k : Nat} (hw : s.waiting = true) (hk : k ≤ 15) :
    s.deliverKey k = ⟨.ok, { s.setReg s.waitReg (BitVec.ofNat 8 k) with waiting := false }⟩ := by
  rw [State.deliverKey, if_neg (by simp [hw]), if_neg (Nat.not_lt.2 hk)]

/-- D13: with a wait pending, an index above 15 is refused. -/
theorem State.deliverKey_of_bad_index {s : State} {k : Nat} (hw : s.waiting = true) (hk : 15 < k) :
    s.deliverKey k = ⟨.badKeyIndex, s⟩ := by
  rw [State.deliverKey, if_neg (by simp [hw]), if_pos hk]

/-- Settles O55: the three outcomes of `deliver_key`, the delivered key by the read of a written register. -/
theorem deliverKeyWritesTheTarget : Obligations.DeliverKeyWritesTheTarget := by
  refine fun s k => ⟨fun hw hk => ?_, State.deliverKey_of_bad_index, fun hn => State.deliverKey_of_not_waiting hn k⟩
  rw [State.deliverKey_of_waiting hw hk]
  refine ⟨rfl, ?_, rfl, rfl, fun r hr => ?_, ((frame_setReg s _ _).trans (frame_waiting _ _)).onlyChanges⟩
  · calc ((s.setReg s.waitReg (BitVec.ofNat 8 k)).reg s.waitReg).toNat
        = (BitVec.ofNat 8 k).toNat := by rw [State.reg_setReg_self]
      _ = k := by rw [BitVec.toNat_ofNat, Nat.mod_eq_of_lt (by omega)]
  · exact State.reg_setReg_ne s _ (List.ne_of_not_mem_cons hr)

/-- Settles O56: a merge rebuilds the latches one by one and writes nothing else. -/
theorem mergeKeyStateOrsTheLatches : Obligations.MergeKeyStateOrsTheLatches :=
  fun s _ => ⟨rfl, fun k => Vector.getElem_ofFn k.isLt, (frame_keys s _).onlyChanges⟩

/-! ### The normal end -/

/-- The two bytes R117 asks for at a normal end are the word of a jump to `pc`. -/
theorem selfJump_word (pc : Word) :
    (0x10 ||| (pc.extractLsb' 8 4).setWidth 8 : Byte) ++ (pc.extractLsb' 0 8 : Byte) = encode (.jump (nnnField pc)) := by
  have hor : ∀ h : Nibble, ((0x10 : Byte) ||| h.setWidth 8).toNat = 16 + h.toNat := by decide
  have hhigh : (pc.extractLsb' 8 4).toNat = pc.toNat / 256 % 16 := toNat_xField pc
  have hlow : (pc.extractLsb' 0 8).toNat = pc.toNat % 256 := toNat_nnField pc
  refine BitVec.eq_of_toNat_eq ?_
  rw [toNat_append_add, hor, hhigh, hlow, encode, toNat_wordFA, toNat_nnnField, show (0x1 : Nibble).toNat = 1 from rfl]
  omega

/-- A `pc` inside memory is the target of the jump that names its low twelve bits. -/
theorem zextAddr_nnnField {pc : Word} (h : pc.toNat < 4096) : zextAddr (nnnField pc) = pc :=
  BitVec.eq_of_toNat_eq (by rw [toNat_zextAddr, toNat_nnnField, Nat.mod_eq_of_lt h])

/-- R117: a normal end is a state whose step is enabled. -/
theorem State.endedNormally.enabled {s : State} (h : s.endedNormally) : s.enabled := by
  obtain ⟨hstatus, hwait, -⟩ := h
  exact ⟨by rw [hstatus]; rfl, hwait⟩

/-- R131: the word at a normal end is the jump to `pc`. -/
theorem State.endedNormally.decode_nextWord {s : State} (h : s.endedNormally) : decode s.nextWord = .ok (.jump (nnnField s.pc)) := by
  obtain ⟨-, -, -, hhigh, hlow⟩ := h
  rw [State.nextWord, hhigh, hlow, selfJump_word, decode_encode]

/-- R131: the execute phase of the self-jump leaves a running engine as it was before the fetch, `Redraw` cleared. -/
theorem State.endedNormally.exec_jump {s : State} (h : s.endedNormally) :
    exec (.jump (nnnField s.pc)) s.afterFetch = .next { s with redraw := false } := by
  obtain ⟨hstatus, -, hpc, -, -⟩ := h
  have htarget : zextAddr (nnnField s.pc) = s.pc := zextAddr_nnnField (Nat.lt_of_succ_lt hpc)
  calc exec (.jump (nnnField s.pc)) s.afterFetch
      = .next { s with status := .running, redraw := false, pc := zextAddr (nnnField s.pc) } := rfl
    _ = .next { s with redraw := false } := by rw [htarget, ← hstatus]

theorem frame_redraw (s : State) (b : Bool) : Frame [.redraw] s { s with redraw := b } :=
  ⟨rfl, fun c hc => by cases c <;> simp_all [Keeps]⟩

/-- A normal end is told by `Status`, the wait, `pc` and memory alone. -/
theorem State.endedNormally.of_frame {parts : List Component} {s t : State} (h : s.endedNormally) (hf : Frame parts s t)
    (hparts : ∀ c ∈ parts, c ∉ [Component.status, .wait, .pc, .mem]) : t.endedNormally := by
  have keep : ∀ c ∈ [Component.status, .wait, .pc, .mem], Keeps c s t := fun c hc => hf.2 c fun hm => hparts c hm hc
  have hstatus : t.status = s.status := keep .status (by decide)
  have hwait : t.waiting = s.waiting := (keep .wait (by decide)).1
  have hpc : t.pc = s.pc := keep .pc (by decide)
  have hmem : t.mem = s.mem := keep .mem (by decide)
  unfold State.endedNormally
  rw [hstatus, hwait, hpc, hmem]
  exact h

/-- Settles O60: the self-jump clears `Redraw`, the tick does the rest, and neither touches what tells a normal end. -/
theorem normalEndIsIdle : Obligations.NormalEndIsIdle := by
  intro s hend hfetch
  have hc : Completes (.jump (nnnField s.pc)) s { s with redraw := false } := ⟨hend.decode_nextWord, rfl, hend.exec_jump⟩
  have hframe : Frame [.redraw, .tone, .dt, .st] s ({ s with redraw := false } : State).timerTick :=
    (frame_redraw s false).trans (frame_timerTick _)
  exact ⟨_, hc.step_eq hend.enabled hfetch, hend.of_frame hframe (by decide), hframe.onlyChanges⟩

end Sys2Proof.Machine
end

section
/-!
PROOFS. Control transfer (spec/41_control_flow.md R130 to R138): Call and Return as a push and a pop of the return stack (10_state.md R27),
their limits, the jumps and the conditional skips.
-/

namespace Sys2Proof.Machine

/-! ### Call and Return -/

/-- R242: Call passes its check where an entry is free. -/
theorem ownError_call_eq_none {s : State} (nnn : Addr12) (h : s.sp.val < 16) : ownError (.call nnn) s = none :=
  if_neg h.ne

/-- R243: Return passes its check where an entry is in use. -/
theorem ownError_ret_eq_none {s : State} (h : 0 < s.sp.val) : ownError .ret s = none :=
  if_neg h.ne'

/-- Settles O24: the entry Call writes is the first free one, and its frame is that of `mayWrite`. -/
theorem callPushesAndJumps : Obligations.CallPushesAndJumps := by
  intro nnn s hfree
  have hok := ownError_call_eq_none nnn hfree
  obtain ⟨_, he⟩ := exec_call_of_ownError_none hok
  refine ⟨_, he, toNat_zextAddr nnn, rfl, fun k => ?_, (exec_frame hok he).onlyChanges⟩
  calc (s.stack.set s.sp.val s.pc hfree)[k.val]
      = if s.sp.val = k.val then s.pc else s.stack[k.val] := Vector.getElem_set ..
    _ = if k.val = s.sp.val then s.pc else s.stack[k.val] := by simp only [eq_comm]

/-- Settles O25: the entry Return reads is the last one in use, and no entry is written. -/
theorem returnPopsTheTop : Obligations.ReturnPopsTheTop := by
  intro s top htop
  have hok := ownError_ret_eq_none (show 0 < s.sp.val by omega)
  have hlast : s.sp.val - 1 = top.val := by omega
  obtain ⟨_, he⟩ := exec_ret_of_ownError_none hok
  refine ⟨_, he, ?_, hlast, fun _ => rfl, (exec_frame hok he).onlyChanges⟩
  simp only [State.setPc_pc, hlast]
  rfl

/-- Settles O27: the entry Call pushed is the top that Return pops. -/
theorem returnUndoesCall : Obligations.ReturnUndoesCall := by
  intro nnn s t u hfree hcall hsame
  obtain ⟨husp, hustack⟩ : u.sp = t.sp ∧ ∀ k : Fin 16, u.stack[k] = t.stack[k] := hsame
  obtain ⟨t', hcall', -, htsp, htstack, -⟩ := callPushesAndJumps nnn s hfree
  obtain rfl : t = t' := Host.Outcome.next.inj (hcall.symm.trans hcall')
  let top : Fin 16 := ⟨s.sp.val, hfree⟩
  obtain ⟨r, hret, hpc, hsp, -, -⟩ := returnPopsTheTop u top (husp ▸ htsp)
  refine ⟨r, hret, ?_, Fin.ext hsp⟩
  calc r.pc = u.stack[top] := hpc
    _ = t.stack[top] := hustack top
    _ = s.pc := (htstack top).trans (if_pos rfl)

/-- Settles O26: at its limit each of the two fails its own check, and raising the error writes `Status` alone. -/
theorem stackLimitsAreFatal : Obligations.StackLimitsAreFatal := by
  refine fun s => ⟨fun hfull nnn => ?_, fun hempty => ?_⟩
  · have hown : ownError (.call nnn) s = some (.stackOverflow, none) := if_pos hfull
    exact ⟨_, exec_of_ownError hown, rfl, (frame_raise s _ _ _ _).onlyChanges⟩
  · have hown : ownError .ret s = some (.stackUnderflow, none) := if_pos hempty
    exact ⟨_, exec_of_ownError hown, rfl, (frame_raise s _ _ _ _).onlyChanges⟩

/-! ### Jumps -/

/-- Settles O23: the encoding by the round trip of its word, the target by the value of an address immediate. -/
theorem jumpSetsTheCounter : Obligations.JumpSetsTheCounter :=
  fun nnn s => ⟨decode_encode (.jump nnn), s.setPc (zextAddr nnn), rfl, toNat_zextAddr nnn, (frame_setPc s _).onlyChanges⟩

/-- R137: sixteen bits hold the target of Jump-plus exactly. -/
theorem toNat_jumpPlus_target (nnn : Addr12) (b : Byte) : (zextAddr nnn + zextByte b).toNat = nnn.toNat + b.toNat := by
  unfold zextByte
  rw [BitVec.toNat_add, toNat_zextAddr, BitVec.toNat_setWidth]
  omega

/-- Settles O29: the target as an exact sum, and `pc` as the one part written. -/
theorem jumpPlusAddsExactly : Obligations.JumpPlusAddsExactly :=
  fun nnn s => ⟨s.setPc (zextAddr nnn + zextByte (s.reg 0)), rfl, toNat_jumpPlus_target nnn _, (frame_setPc s _).onlyChanges⟩

/-! ### Conditional skips -/

/-- R138: an instruction that skips on a test adds 2 to `pc` or nothing, as the condition it tests holds or not, and writes nothing else. -/
theorem exec_skip {i : Instr} {s : State} {taken : Bool} {cond : Prop} [Decidable cond]
    (h : exec i s = .next (s.skipIf taken)) (hcond : taken = true ↔ cond) :
    ∃ t, exec i s = .next t ∧ OnlyChanges [.pc] s t ∧ t.pc = if cond then s.pc + 2 else s.pc := by
  refine ⟨_, h, (frame_skipIf s taken).onlyChanges, ?_⟩
  simp only [State.skipIf_eq, State.setPc_pc, hcond]

/-- Settles O28: two skips test for equality, two for its negation. -/
theorem conditionalSkipsCompare : Obligations.ConditionalSkipsCompare := by
  refine fun x y nn s => ⟨exec_skip rfl beq_iff_eq, ?_, exec_skip rfl beq_iff_eq, ?_⟩
  · simpa only [ne_eq, ite_not] using exec_skip (i := .skipNeConst x nn) rfl bne_iff_ne
  · simpa only [ne_eq, ite_not] using exec_skip (i := .skipNeReg x y) rfl bne_iff_ne

end Sys2Proof.Machine
end

section
/-!
PROOFS. Register arithmetic (spec/42_register_arithmetic.md R150 to R164): what the register file reads as after one write, after a result
and its flag, and after a flag and both results of a shift (R152); the value of each result and each flag; then the instructions.
-/

namespace Sys2Proof.Machine

/-! ### Which registers an instruction writes -/

/-- A write to a named register keeps the others unchanged. -/
theorem RegsBut.setReg {named : List Nibble} {s t : State} (h : RegsBut named s t) (x : Nibble) (b : Byte)
    (hx : x ∈ named := by simp [vf]) : RegsBut named s (t.setReg x b) := fun r hr =>
  calc (t.setReg x b).reg r
      = t.reg r := State.reg_setReg_ne t b fun e => hr (e ▸ hx)
    _ = s.reg r := h r hr

theorem RegsBut.refl (named : List Nibble) (s : State) : RegsBut named s s := fun _ _ => rfl

/-- R150: a single register write leaves the other registers, `VF` among them, and every other part. -/
theorem State.setReg_only (s : State) (x : Nibble) (b : Byte) :
    RegsBut [x] s (s.setReg x b) ∧ OnlyChanges [.regs] s (s.setReg x b) :=
  ⟨(RegsBut.refl _ s).setReg x b, (frame_setReg s x b).onlyChanges⟩

/-! ### The two orders of writes (R152) -/

/-- R152: the flag is written last, so `VF` ends as the flag whatever x is. -/
theorem State.reg_vf_setResultThenFlag (s : State) (x : Nibble) (result flag : Byte) :
    (s.setResultThenFlag x result flag).reg 0xF = flag :=
  State.reg_setReg_self _ vf flag

theorem State.reg_setResultThenFlag_of_ne_vf (s : State) {x : Nibble} (result flag : Byte) (hx : x ≠ 0xF) :
    (s.setResultThenFlag x result flag).reg x = result :=
  (State.reg_setReg_ne _ flag hx).trans (State.reg_setReg_self s x result)

theorem State.setResultThenFlag_only (s : State) (x : Nibble) (result flag : Byte) :
    RegsBut [x, 0xF] s (s.setResultThenFlag x result flag) ∧ OnlyChanges [.regs] s (s.setResultThenFlag x result flag) :=
  ⟨((RegsBut.refl _ s).setReg x result).setReg vf flag, (frame_regs s _).onlyChanges⟩

/-- R152: the result is written last, so `V[x]` ends as the result whatever x is. -/
theorem State.reg_setFlagThenBoth_fst (s : State) (x y : Nibble) (flag result : Byte) :
    (s.setFlagThenBoth x y flag result).reg x = result :=
  State.reg_setReg_self _ x result

/-- R152: the later write to `V[x]` is the same result, so `V[y]` ends as the result where x is y too. -/
theorem State.reg_setFlagThenBoth_snd (s : State) (x y : Nibble) (flag result : Byte) :
    (s.setFlagThenBoth x y flag result).reg y = result := by
  rw [State.setFlagThenBoth, State.reg_setReg, State.reg_setReg_self, ite_self]

theorem State.reg_vf_setFlagThenBoth_of_ne_vf (s : State) {x y : Nibble} (flag result : Byte) (hx : x ≠ 0xF)
    (hy : y ≠ 0xF) : (s.setFlagThenBoth x y flag result).reg 0xF = flag :=
  calc (((s.setReg vf flag).setReg y result).setReg x result).reg 0xF
      = ((s.setReg vf flag).setReg y result).reg 0xF := State.reg_setReg_ne _ result hx.symm
    _ = (s.setReg vf flag).reg 0xF := State.reg_setReg_ne _ result hy.symm
    _ = flag := State.reg_setReg_self s vf flag

theorem State.setFlagThenBoth_only (s : State) (x y : Nibble) (flag result : Byte) :
    RegsBut [x, y, 0xF] s (s.setFlagThenBoth x y flag result) ∧
      OnlyChanges [.regs] s (s.setFlagThenBoth x y flag result) :=
  ⟨(((RegsBut.refl _ s).setReg vf flag).setReg y result).setReg x result, (frame_regs s _).onlyChanges⟩

/-! ### Results and flags as numbers -/

/-- R159: the carry. -/
theorem carryFlag_eq (a b : Byte) : carryFlag a b = if a.toNat + b.toNat > 255 then 1 else 0 := by
  simp only [carryFlag, flagByte, decide_eq_true_eq, gt_iff_lt]

/-- R160, R162: not-borrow. -/
theorem notBorrowFlag_eq (a b : Byte) : notBorrowFlag a b = if a.toNat < b.toNat then 0 else 1 := by
  by_cases h : a.toNat < b.toNat <;> simp [notBorrowFlag, flagByte, h]

/-- R150: a difference is taken modulo 256. -/
theorem toNat_sub_byte (a b : Byte) : (a - b).toNat = (a.toNat + 256 - b.toNat) % 256 := by
  have hb : b.toNat < 256 := b.isLt
  rw [BitVec.toNat_sub]
  omega

theorem toNat_byte_ushiftRight_one (v : Byte) : (v >>> 1).toNat = v.toNat / 2 := by
  rw [BitVec.toNat_ushiftRight, Nat.shiftRight_one]

theorem toNat_byte_shiftLeft_one (v : Byte) : (v <<< 1).toNat = v.toNat * 2 % 256 := by
  rw [BitVec.toNat_shiftLeft, Nat.shiftLeft_eq, pow_one]

/-- R161: the low bit. -/
theorem toNat_shiftedOutLow (v : Byte) : (shiftedOutLow v).toNat = v.toNat % 2 := by
  rw [shiftedOutLow, BitVec.toNat_and]
  exact Nat.and_one_is_mod v.toNat

/-- R163: the high bit is left in its place. -/
theorem shiftedOutHigh_eq (v : Byte) : shiftedOutHigh v = if 128 ≤ v.toNat then 0x80 else 0x00 := by
  revert v; decide

/-! ### Carry, not-borrow and the shifts -/

/-- Settles O32: the sum survives unless the carry is written over it. -/
theorem addRegSetsCarry : Obligations.AddRegSetsCarry := by
  refine fun x y s => ⟨_, rfl, fun hx => ?_, ?_, s.setResultThenFlag_only x _ _⟩
  · rw [State.reg_setResultThenFlag_of_ne_vf s _ _ hx, BitVec.toNat_add]
  · rw [State.reg_vf_setResultThenFlag, carryFlag_eq]

/-- R160, R162: an instruction that stores a difference, then its not-borrow, whichever register is subtracted from which. -/
theorem exec_subtraction {i : Instr} {s : State} {x : Nibble} {a b : Byte}
    (h : exec i s = .next (s.setResultThenFlag x (a - b) (notBorrowFlag a b))) :
    ∃ t, exec i s = .next t ∧ (x ≠ 0xF → (t.reg x).toNat = (a.toNat + 256 - b.toNat) % 256) ∧
      t.reg 0xF = (if a.toNat < b.toNat then 0 else 1) ∧ RegsBut [x, 0xF] s t ∧ OnlyChanges [.regs] s t := by
  refine ⟨_, h, fun hx => ?_, ?_, s.setResultThenFlag_only x _ _⟩
  · rw [State.reg_setResultThenFlag_of_ne_vf s _ _ hx, toNat_sub_byte]
  · rw [State.reg_vf_setResultThenFlag, notBorrowFlag_eq]

/-- Settles O33: the two subtractions differ in the order of their operands alone. -/
theorem subtractionsSetNotBorrow : Obligations.SubtractionsSetNotBorrow :=
  fun _ _ _ => ⟨exec_subtraction rfl, exec_subtraction rfl⟩

/-- Settles O34: both registers hold the shifted value, and the flag survives unless one of them is `VF`. -/
theorem shiftsWriteBothRegisters : Obligations.ShiftsWriteBothRegisters := by
  refine fun x y s => ⟨⟨_, rfl, ?_, ?_, fun hx hy => ?_, s.setFlagThenBoth_only x y _ _⟩,
    ⟨_, rfl, ?_, ?_, fun hx hy => ?_, s.setFlagThenBoth_only x y _ _⟩⟩
  · rw [State.reg_setFlagThenBoth_fst, toNat_byte_ushiftRight_one]
  · rw [State.reg_setFlagThenBoth_snd, toNat_byte_ushiftRight_one]
  · rw [State.reg_vf_setFlagThenBoth_of_ne_vf s _ _ hx hy, toNat_shiftedOutLow]
  · rw [State.reg_setFlagThenBoth_fst, toNat_byte_shiftLeft_one]
  · rw [State.reg_setFlagThenBoth_snd, toNat_byte_shiftLeft_one]
  · rw [State.reg_vf_setFlagThenBoth_of_ne_vf s _ _ hx hy, shiftedOutHigh_eq]

/-! ### One register and no flag -/

/-- Settles O30: each of the two is one register write. -/
theorem immediateFormsWriteOneRegister : Obligations.ImmediateFormsWriteOneRegister := by
  refine fun x nn s => ⟨⟨_, rfl, s.reg_setReg_self x nn, s.setReg_only x _⟩, ⟨_, rfl, ?_, s.setReg_only x _⟩⟩
  rw [State.reg_setReg_self, BitVec.toNat_add]

/-- Settles O31: each of the four is one register write, its value read bit by bit. -/
theorem copyAndBitwiseWriteOneRegister : Obligations.CopyAndBitwiseWriteOneRegister := by
  refine fun x y s => ⟨⟨_, rfl, s.reg_setReg_self x _, s.setReg_only x _⟩, ⟨_, rfl, fun k _ => ?_, s.setReg_only x _⟩,
    ⟨_, rfl, fun k _ => ?_, s.setReg_only x _⟩, ⟨_, rfl, fun k _ => ?_, s.setReg_only x _⟩⟩
  · rw [State.reg_setReg_self, BitVec.getLsbD_or]
  · rw [State.reg_setReg_self, BitVec.getLsbD_and]
  · rw [State.reg_setReg_self, BitVec.getLsbD_xor]

/-- Settles O35: a register write of the masked byte, then the count of draws. -/
theorem randomIsMasked : Obligations.RandomIsMasked := fun x _ s =>
  ⟨_, rfl, s.reg_setReg_self x _, rfl, (s.setReg_only x _).1, ((frame_setReg s x _).trans (frame_draws _ _)).onlyChanges⟩

end Sys2Proof.Machine
end

section
/-!
PROOFS. The address register and memory transfers (spec/43_address_memory.md R180 to R186): the values written to `I`, the bytes of the
stored digits and of a register run, the registers of a loaded run, and a load after a dump.
-/

namespace Sys2Proof.Machine

/-! ### The address register -/

/-- A register as an address offset has its value. -/
theorem toNat_zextByte (b : Byte) : (zextByte b).toNat = b.toNat := by
  unfold zextByte
  rw [BitVec.toNat_setWidth, Nat.mod_eq_of_lt (by omega)]

/-- R182: sixteen bits hold five times a register, whatever it holds. -/
theorem toNat_five_mul_zextByte (b : Byte) : (5 * zextByte b).toNat = 5 * b.toNat := by
  rw [BitVec.toNat_mul, toNat_zextByte, show (5 : Word).toNat = 5 from rfl, Nat.mod_eq_of_lt (by omega)]

/-- Settles O36: each of the three is one write to `I`. -/
theorem addressInstructionsWriteI : Obligations.AddressInstructionsWriteI := by
  refine fun nnn x s => ⟨⟨s.setI (zextAddr nnn), rfl, toNat_zextAddr nnn, (frame_setI s _).onlyChanges⟩,
    ⟨s.setI (s.I + zextByte (s.reg x)), rfl, ?_, (frame_setI s _).onlyChanges⟩,
    ⟨s.setI (5 * zextByte (s.reg x)), rfl, toNat_five_mul_zextByte _, (frame_setI s _).onlyChanges⟩⟩
  rw [State.setI_I, BitVec.toNat_add, toNat_zextByte]

/-- R184, R185, D4: a transfer of `V[0..x]` advances `I` by its x + 1 bytes, modulo 65536. -/
theorem State.toNat_advanceI (s : State) (x : Nibble) : (s.advanceI x).I.toNat = (s.I.toNat + x.toNat + 1) % 65536 := by
  have hx : (x.setWidth 16).toNat = x.toNat := by rw [BitVec.toNat_setWidth, Nat.mod_eq_of_lt (by omega)]
  rw [State.advanceI_I, BitVec.toNat_add, BitVec.toNat_add, hx, show (1 : Word).toNat = 1 from rfl, Nat.mod_add_mod]

/-! ### Stores -/

/-- A block of writes changes its own bytes alone. -/
theorem memBut_writeBlock {s t : State} {start : Nat} {bs : List Byte} (h : t.mem = Memory.writeBlock s.mem start bs) :
    MemBut start bs.length s t := fun a ha => by
  rw [h, Memory.read_writeBlock_outside ha]

/-- R183: the digits of a byte as stored from `I` on. -/
theorem toNat_bcdByte (x : Nibble) (s : State) :
    (bcdByte x s s.I.toNat).toNat = (s.reg x).toNat / 100 ∧
    (bcdByte x s (s.I.toNat + 1)).toNat = (s.reg x).toNat / 10 % 10 ∧
    (bcdByte x s (s.I.toNat + 2)).toNat = (s.reg x).toNat % 10 := by
  have hbyte : (s.reg x).toNat < 256 := (s.reg x).isLt
  refine ⟨?_, ?_, ?_⟩
  · rw [bcdByte, if_pos rfl, BitVec.toNat_ofNat, Nat.mod_eq_of_lt (by omega)]
  · rw [bcdByte, if_neg (by omega), if_pos rfl, BitVec.toNat_ofNat, Nat.mod_eq_of_lt (by omega)]
  · rw [bcdByte, if_neg (by omega), if_neg (by omega), if_pos rfl, BitVec.toNat_ofNat, Nat.mod_eq_of_lt (by omega)]

/-- Settles O37: the bytes of the block by `bcdByte`, and every other part by the frame of `mayWrite`. -/
theorem storeBcdWritesTheDigits : Obligations.StoreBcdWritesTheDigits := by
  intro x s hrange
  have hok : ownError (.storeBcd x) s = none := blockError_eq_none (Nat.succ_le_of_lt hrange)
  have he := exec_storeBcd_of_ownError_none hok
  obtain ⟨hhundreds, htens, hunits⟩ := toNat_bcdByte x s
  refine ⟨_, he, ?_, ?_, ?_, memBut_writeBlock (bs := bcdDigits (s.reg x)) rfl, (exec_frame hok he).onlyChanges⟩
  · rw [read_bcd, hhundreds]
  · rw [read_bcd, htens]
  · rw [read_bcd, hunits]

/-- R184: the byte of a register's place in a dumped run. -/
theorem dumpedByte_of_le {x k : Nibble} (s : State) (hk : k ≤ x) : dumpedByte x s (s.I.toNat + k.toNat) = s.reg k := by
  have hin : s.I.toNat ≤ s.I.toNat + k.toNat ∧ s.I.toNat + k.toNat ≤ s.I.toNat + x.toNat :=
    ⟨Nat.le_add_right _ _, Nat.add_le_add_left hk _⟩
  rw [dumpedByte, if_pos hin, Nat.add_sub_cancel_left, BitVec.ofNat_toNat, BitVec.setWidth_eq]

/-- Settles O38: the bytes of the block by `dumpedByte`, and every other part by the frame of `mayWrite`. -/
theorem registerDumpStoresTheRun : Obligations.RegisterDumpStoresTheRun := by
  intro x s hrange
  have hok : ownError (.regDump x) s = none := blockError_eq_none hrange
  have he := exec_regDump_of_ownError_none hok
  refine ⟨_, he, fun k hk => ?_, ?_, State.toNat_advanceI _ x, (exec_frame hok he).onlyChanges⟩
  · rw [State.advanceI_mem, read_dumped, dumpedByte_of_le s hk]
  · rw [← State.length_regsUpTo s x]
    exact memBut_writeBlock rfl

/-! ### Loads -/

/-- R185: a register after `V[0..x]` is loaded from a block: the byte of its place in the run, what it held above the run. -/
theorem State.reg_loadRun (s : State) (x k : Nibble) (a : Nat) :
    (s.setRegsFrom 0 (Memory.readBlock s.mem a (x.toNat + 1))).reg k =
      if k ≤ x then Memory.read s.mem (a + k.toNat) else s.reg k := by
  rw [State.reg_setRegsFrom _ _ _ _ (by simp; omega), if_pos (Nat.zero_le _), Nat.sub_zero]
  split
  case isTrue hk =>
    have hlt : k.toNat < (Memory.readBlock s.mem a (x.toNat + 1)).length := by
      rw [Memory.length_readBlock]
      exact Nat.lt_succ_of_le hk
    rw [List.getElem?_eq_getElem hlt, Option.getD_some, Memory.getElem_readBlock]
  case isFalse hk =>
    have hge : (Memory.readBlock s.mem a (x.toNat + 1)).length ≤ k.toNat := by
      rw [Memory.length_readBlock]
      exact Nat.lt_of_not_le hk
    rw [List.getElem?_eq_none hge, Option.getD_none]

/-- Writing a run of registers keeps `I`. -/
theorem State.setRegsFrom_I (s : State) (k : Nat) (bs : List Byte) : (s.setRegsFrom k bs).I = s.I := by
  rw [State.setRegsFrom_eq]

/-- Settles O39: the registers of the run and above it by the loaded run, and every other part by the frame of `mayWrite`. -/
theorem registerLoadLoadsTheRun : Obligations.RegisterLoadLoadsTheRun := by
  intro x s hrange
  have hok : ownError (.regLoad x) s = none := blockError_eq_none hrange
  have he := exec_regLoad_of_ownError_none hok
  refine ⟨_, he, fun k hk => ?_, fun k hk => ?_, ?_, (exec_frame hok he).onlyChanges⟩
  · rw [State.reg_advanceI, State.reg_loadRun, if_pos hk, State.base]
  · rw [State.reg_advanceI, State.reg_loadRun, if_neg (BitVec.not_le.2 hk)]
  · rw [State.toNat_advanceI, State.setRegsFrom_I]

/-- Settles O41: the load reads at each place of the block the register that the dump stored there. -/
theorem registerLoadInvertsDump : Obligations.RegisterLoadInvertsDump := by
  intro x s t u hrange hdump hmem hI
  obtain ⟨t', hdump', hstored, -, htI, -⟩ := registerDumpStoresTheRun x s hrange
  obtain rfl : t = t' := Host.Outcome.next.inj (hdump.symm.trans hdump')
  obtain ⟨r, hload, hloaded, -, hrI, -⟩ := registerLoadLoadsTheRun x u (by rwa [hI])
  refine ⟨r, hload, fun k hk => ?_, BitVec.eq_of_toNat_eq ?_⟩
  · calc r.reg k = Memory.read u.mem (u.I.toNat + k.toNat) := hloaded k hk
      _ = Memory.read u.mem (s.I.toNat + k.toNat) := by rw [hI]
      _ = Memory.read t.mem (s.I.toNat + k.toNat) := hmem _
      _ = s.reg k := hstored k hk
  · rw [hrI, htI, hI]

end Sys2Proof.Machine
end

section
/-!
PROOFS. The display (spec/44_display.md R200 to R204): the pixels of one Draw land apart, so one pixel after another, one row after another,
a canvas ends with exactly the covered cells inverted and the collision of exactly those cells; then the instructions.
-/

namespace Sys2Proof.Machine

/-! ### Where the pixels land -/

/-- Settles O46: two offsets on one cell agree modulo the display's sizes, which no offset of a sprite reaches. -/
theorem spritePixelsLandApart : Obligations.SpritePixelsLandApart := by
  intro wrap px py c c' r r' hc hc' hr hr' heq
  have hland := (place_eq_iff wrap (px + c) (py + r) _ _).1 heq
  have hland' := (place_eq_iff wrap (px + c') (py + r') _ _).1 rfl
  cases wrap with
  | perAxis =>
    obtain ⟨hcol, hrow⟩ := hland
    obtain ⟨hcol', hrow'⟩ := hland'
    omega
  | flatIndex =>
    have hflat := Eq.trans hland hland'.symm
    omega

/-- The cells that the bits 1 of a sprite row's first `m` columns fall on (R202, R203). -/
def rowCells (wrap : Config.WrapPolicy) (px py : Nat) (b : Byte) (m : Nat) : Set (Fin 64 × Fin 32) :=
  {cell | ∃ c < m, spriteBit b c = true ∧ place wrap (px + c) py = cell}

/-- The cells that the bits 1 of a sprite fall on, row by row as `plotSprite` draws them. -/
def spriteCells (wrap : Config.WrapPolicy) (px py : Nat) : List Byte → Set (Fin 64 × Fin 32)
  | [] => ∅
  | b :: rows => rowCells wrap px py b 8 ∪ spriteCells wrap px (py + 1) rows

theorem mem_spriteCells {wrap : Config.WrapPolicy} {px py : Nat} {rows : List Byte} {cell : Fin 64 × Fin 32} :
    cell ∈ spriteCells wrap px py rows ↔ ∃ r b, rows[r]? = some b ∧ cell ∈ rowCells wrap px (py + r) b 8 := by
  induction rows generalizing py with
  | nil => simp [spriteCells]
  | cons b rows ih =>
    conv_rhs => rw [← Nat.or_exists_add_one]
    simp [spriteCells, ih, Nat.add_assoc, Nat.add_comm 1]

/-- R201 to R203: the cells of the sprite in memory are the cells it covers. -/
theorem mem_spriteCells_readBlock (x y n : Nibble) (s : State) (col : Fin 64) (row : Fin 32) :
    (col, row) ∈ spriteCells s.policies.wrap (s.reg x).toNat (s.reg y).toNat (Memory.readBlock s.mem s.base n.toNat) ↔
      SpriteCovers s x y n col row := by
  simp [mem_spriteCells, rowCells, place_eq_iff, List.getElem?_eq_some_iff, SpriteCovers, spriteBit, State.base, and_assoc]

/-! ### What drawing does to a canvas -/

/-- Drawing has inverted exactly the cells of `cells`, and has collided exactly where one of them was on (R201, R204). -/
structure Inverts (cells : Set (Fin 64 × Fin 32)) (c d : Canvas) : Prop where
  inside : ∀ col row, (col, row) ∈ cells → Display.get d.cells col row = !Display.get c.cells col row
  outside : ∀ col row, (col, row) ∉ cells → Display.get d.cells col row = Display.get c.cells col row
  collided : d.collided = true ↔ c.collided = true ∨ ∃ col row, (col, row) ∈ cells ∧ Display.get c.cells col row = true

theorem Inverts.empty (c : Canvas) : Inverts ∅ c c := ⟨by simp, by simp, by simp⟩

/-- Two drawings whose cells lie apart are one drawing of all their cells: the second finds its cells as they were before the first. -/
theorem Inverts.union {p q : Set (Fin 64 × Fin 32)} {c d e : Canvas} (h : Inverts p c d) (h' : Inverts q d e)
    (hpq : Disjoint p q) : Inverts (p ∪ q) c e where
  inside col row hin := by
    rcases hin with hp | hq
    · rw [h'.outside col row (hpq.notMem_of_mem_left hp), h.inside col row hp]
    · rw [h'.inside col row hq, h.outside col row (hpq.notMem_of_mem_right hq)]
  outside col row hout := by
    rw [h'.outside col row fun hq => hout (.inr hq), h.outside col row fun hp => hout (.inl hp)]
  collided := by
    have hkept : ∀ col row, (col, row) ∈ q ∧ Display.get d.cells col row = true ↔
        (col, row) ∈ q ∧ Display.get c.cells col row = true := fun col row =>
      and_congr_right fun hq => by rw [h.outside col row (hpq.notMem_of_mem_right hq)]
    simp only [h'.collided, h.collided, hkept, or_assoc, Set.mem_union, or_and_right, exists_or]

/-- R201: one pixel inverts its cell where its bit is 1. -/
theorem inverts_plotPixel (wrap : Config.WrapPolicy) (px py : Nat) (bit : Bool) (c : Canvas) :
    Inverts {cell | bit = true ∧ place wrap px py = cell} c (plotPixel wrap px py bit c) where
  inside col row hin := (get_plotPixel wrap px py bit c col row).trans (if_pos hin)
  outside col row hout := (get_plotPixel wrap px py bit c col row).trans (if_neg hout)
  collided := by
    rw [collided_plotPixel, Bool.or_eq_true, Bool.and_eq_true]
    refine or_congr_right ⟨fun ⟨hbit, hon⟩ => ⟨_, _, ⟨hbit, rfl⟩, hon⟩, ?_⟩
    rintro ⟨col, row, ⟨hbit, hcell⟩, hon⟩
    exact ⟨hbit, by rwa [hcell]⟩

/-- R202: the column after the first `m` lands apart from them. -/
theorem disjoint_rowCells_pixel (wrap : Config.WrapPolicy) (px py : Nat) (b : Byte) {m : Nat} (hm : m < 8) (bit : Bool) :
    Disjoint (rowCells wrap px py b m) {cell | bit = true ∧ place wrap (px + m) py = cell} := by
  rw [Set.disjoint_left]
  rintro _ ⟨c, hc, -, rfl⟩ ⟨-, hcell⟩
  have hsame := spritePixelsLandApart wrap px py m c 0 0 hm (by omega) (by omega) (by omega) hcell
  omega

/-- R202: a row lands apart from the rows below it. -/
theorem disjoint_rowCells_spriteCells (wrap : Config.WrapPolicy) (px py : Nat) (b : Byte) {rows : List Byte}
    (hrows : rows.length < 15) : Disjoint (rowCells wrap px py b 8) (spriteCells wrap px (py + 1) rows) := by
  rw [Set.disjoint_left]
  rintro _ ⟨c, hc, -, rfl⟩ hbelow
  obtain ⟨r, b', hrow, c', hc', -, hcell⟩ := mem_spriteCells.1 hbelow
  have hr : r < rows.length := (List.getElem?_eq_some_iff.1 hrow).1
  rw [Nat.add_assoc] at hcell
  have hsame := spritePixelsLandApart wrap px py c' c (1 + r) 0 hc' hc (by omega) (by omega) hcell
  omega

theorem rowCells_succ (wrap : Config.WrapPolicy) (px py : Nat) (b : Byte) (m : Nat) :
    rowCells wrap px py b (m + 1) =
      rowCells wrap px py b m ∪ {cell | spriteBit b m = true ∧ place wrap (px + m) py = cell} := by
  ext cell
  simp only [rowCells, Set.mem_union, Set.mem_ofPred_eq, Nat.exists_lt_succ_right]

/-- R201: a row's first `m` columns. -/
theorem inverts_plotColumns (wrap : Config.WrapPolicy) (px py : Nat) (b : Byte) (c : Canvas) {m : Nat} (hm : m ≤ 8) :
    Inverts (rowCells wrap px py b m) c
      ((List.range m).foldl (fun acc k => plotPixel wrap (px + k) py (spriteBit b k) acc) c) := by
  induction m with
  | zero => simpa [rowCells] using Inverts.empty c
  | succ m ih =>
    rw [rowCells_succ, List.range_succ, List.foldl_append]
    exact (ih (by omega)).union (inverts_plotPixel wrap (px + m) py (spriteBit b m) _)
      (disjoint_rowCells_pixel wrap px py b hm _)

/-- R201: a sprite of at most 15 rows. -/
theorem inverts_plotSprite (wrap : Config.WrapPolicy) (px py : Nat) {rows : List Byte} (hrows : rows.length ≤ 15) (c : Canvas) :
    Inverts (spriteCells wrap px py rows) c (plotSprite wrap px py rows c) := by
  induction rows generalizing py c with
  | nil => exact Inverts.empty c
  | cons b rows ih =>
    exact (inverts_plotColumns wrap px py b c (Nat.le_refl 8)).union (ih (py + 1) (Nat.le_of_succ_le hrows) _)
      (disjoint_rowCells_spriteCells wrap px py b hrows)

/-- R201: the canvas of a Draw against the display before it. -/
theorem State.inverts_drawn (s : State) (x y n : Nibble) :
    Inverts {cell | SpriteCovers s x y n cell.1 cell.2} ⟨s.disp, false⟩ (s.drawn x y n) := by
  have hrows : (Memory.readBlock s.mem s.base n.toNat).length ≤ 15 := by
    rw [Memory.length_readBlock]
    omega
  have hcells : {cell | SpriteCovers s x y n cell.1 cell.2} =
      spriteCells s.policies.wrap (s.reg x).toNat (s.reg y).toNat (Memory.readBlock s.mem s.base n.toNat) :=
    Set.ext fun cell => (mem_spriteCells_readBlock x y n s cell.1 cell.2).symm
  rw [hcells]
  exact inverts_plotSprite _ _ _ hrows _

/-! ### Clear display and Draw-sprite -/

/-- Settles O43: every cell of the blank display is off. -/
theorem clearBlanksTheDisplay : Obligations.ClearBlanksTheDisplay := fun s =>
  ⟨rfl, _, rfl, Display.get_blank, rfl, (frame_disp s _).onlyChanges⟩

/-- Settles O45: Draw-sprite's own check is that of its n rows, which fails. -/
theorem drawOutOfRangeIsFatal : Obligations.DrawOutOfRangeIsFatal := by
  intro x y n s hn hrange
  have hown : ownError (.draw x y n) s = some (.memoryOutOfRange, some (max s.I.toNat 4096)) := if_pos ⟨hn, hrange⟩
  exact ⟨_, exec_of_ownError hown, rfl, (frame_raise s _ _ _ _).onlyChanges⟩

/-- Settles O44: the canvas inverts the covered cells, and `VF` is the collision that the canvas reports. -/
theorem drawInvertsTheCoveredCells : Obligations.DrawInvertsTheCoveredCells := by
  intro x y n s hrange
  have hok : ownError (.draw x y n) s = none := if_neg (by omega)
  have he := exec_draw_of_ownError_none hok
  obtain ⟨hinside, houtside, hcollided⟩ := s.inverts_drawn x y n
  have hvf : (s.setReg vf (collisionFlag (s.drawn x y n).collided)).reg 0xF = flagByte (s.drawn x y n).collided :=
    State.reg_setReg_self s vf _
  refine ⟨_, he, hinside, houtside, fun hon => ?_, fun hoff => ?_, rfl, (s.setReg_only vf _).1, (exec_frame hok he).onlyChanges⟩
  · exact hvf.trans (congrArg flagByte (hcollided.2 (.inr hon)))
  · refine hvf.trans (congrArg flagByte (Bool.eq_false_iff.2 fun hc => ?_))
    obtain hc | ⟨col, row, hin, hon⟩ := hcollided.1 hc
    · cases hc
    · exact absurd hon (Bool.eq_false_iff.1 (hoff col row hin))

/-- What a sprite covers depends on memory, `I`, the origin registers and the policy alone. -/
theorem spriteCovers_congr {x y n : Nibble} {s t : State} (hmem : Same .mem s t) (hI : t.I = s.I)
    (hpolicies : t.policies = s.policies) (hx : t.reg x = s.reg x) (hy : t.reg y = s.reg y) (col : Fin 64) (row : Fin 32) :
    SpriteCovers t x y n col row ↔ SpriteCovers s x y n col row := by
  unfold SpriteCovers
  simp only [hmem _, hI, hpolicies, hx, hy]

/-- Settles O47: the second Draw covers the cells that the first one turned on. -/
theorem drawingTwiceErasesAndCollides : Obligations.DrawingTwiceErasesAndCollides := by
  intro x y n s t hx hy hrange hblank hdraw
  obtain ⟨t', hdraw', hinside, houtside, -, hzero, -, hregs, honly⟩ := drawInvertsTheCoveredCells x y n s hrange
  obtain rfl : t = t' := Host.Outcome.next.inj (hdraw.symm.trans hdraw')
  have hI : t.I = s.I := honly.2 .iReg (by decide)
  have hcovers : ∀ col row, SpriteCovers t x y n col row ↔ SpriteCovers s x y n col row :=
    spriteCovers_congr (honly.2 .mem (by decide)) hI honly.1 (hregs x (by simpa using hx)) (hregs y (by simpa using hy))
  have hon : ∀ col row, SpriteCovers s x y n col row → t.pixel col row = true := fun col row hin => by
    rw [hinside col row hin, hblank, Bool.not_false]
  obtain ⟨u, hredraw, hinside', houtside', hone', hzero', -⟩ := drawInvertsTheCoveredCells x y n t (by rwa [hI])
  refine ⟨hzero fun col row _ => hblank col row, u, hredraw, fun col row => ?_, ?_, fun hnone => ?_⟩
  · by_cases hin : SpriteCovers s x y n col row
    · rw [hinside' col row ((hcovers col row).2 hin), hon col row hin, Bool.not_true]
    · rw [houtside' col row fun h => hin ((hcovers col row).1 h), houtside col row hin, hblank]
  · rintro ⟨col, row, hin⟩
    exact hone' ⟨col, row, (hcovers col row).2 hin, hon col row hin⟩
  · exact hzero' fun col row hin => absurd ((hcovers col row).1 hin) (hnone col row)

end Sys2Proof.Machine
end

section
/-!
PROOFS. Keys, the key-wait and the timers (spec/45_keys_timers.md R220 to R226): the two key skips as one test of a latch that clears it,
the timer copies, and the wait of Get-key until the host delivers a key (95_test_vectors.md S14).
-/

namespace Sys2Proof.Machine

/-! ### The key skips -/

/-- R220: a register that holds an index up to 15 names that key. -/
theorem keyIndex_eq_some {b : Byte} {k : Fin 16} (h : b.toNat = k.val) : keyIndex b = some k := by
  obtain ⟨_, hb⟩ | ⟨habove, -⟩ := keyIndex_cases b
  · rw [hb]
    exact congrArg some (Fin.ext h)
  · omega

/-- R220: Skip-if-key-pressed on the key `k`. -/
theorem exec_skipKey_of_index {x : Nibble} {k : Fin 16} {s : State} (h : (s.reg x).toNat = k.val) :
    exec (.skipKey x) s = .next ((s.clearKey k).skipIf (s.key k)) := by
  simp only [exec, execSkipKey, keyIndex_eq_some h]

/-- R221: Skip-if-key-not-pressed on the key `k`. -/
theorem exec_skipNotKey_of_index {x : Nibble} {k : Fin 16} {s : State} (h : (s.reg x).toNat = k.val) :
    exec (.skipNotKey x) s = .next ((s.clearKey k).skipIf (!s.key k)) := by
  simp only [exec, execSkipNotKey, keyIndex_eq_some h]

/-- R31, R220, R221: an instruction that clears a latch and skips on a test adds 2 to `pc` or nothing, as the condition it tests holds or
not, and leaves every other latch and every other part. -/
theorem exec_clearKey_skip {i : Instr} {s : State} {k : Fin 16} {taken : Bool} {cond : Prop} [Decidable cond]
    (h : exec i s = .next ((s.clearKey k).skipIf taken)) (hcond : taken = true ↔ cond) :
    ∃ t, exec i s = .next t ∧ t.pc = (if cond then s.pc + 2 else s.pc) ∧
      t.key k = false ∧ (∀ j, j ≠ k → t.key j = s.key j) ∧ OnlyChanges [.pc, .keys] s t := by
  have hkey : ∀ j, ((s.clearKey k).skipIf taken).key j = if j = k then false else s.key j := fun j =>
    calc ((s.clearKey k).skipIf taken).key j
        = (s.clearKey k).key j := ((frame_skipIf (s.clearKey k) taken).2 .keys (by decide)).same j
      _ = if j = k then false else s.key j := s.key_clearKey k j
  refine ⟨_, h, ?_, (hkey k).trans (if_pos rfl), fun j hj => (hkey j).trans (if_neg hj), ?_⟩
  · simp only [State.skipIf_eq, State.setPc_pc, State.clearKey_pc, hcond]
  · exact ((frame_clearKey s k).trans (frame_skipIf _ taken)).onlyChanges

/-- Settles O48: one skip tests the latch, the other its negation, and each clears it. -/
theorem keySkipsTestAndClear : Obligations.KeySkipsTestAndClear := by
  refine fun x k s hk => ⟨exec_clearKey_skip (exec_skipKey_of_index hk) Iff.rfl, ?_⟩
  have hnot : (!s.key k) = true ↔ ¬s.key k = true := by rw [Bool.not_eq_true', Bool.not_eq_true]
  simpa only [ite_not] using exec_clearKey_skip (exec_skipNotKey_of_index hk) hnot

/-- R31: either key skip leaves the latch it tests cleared. -/
theorem key_eq_false_of_exec_keySkip {i : Instr} {x : Nibble} {k : Fin 16} {s t : State} (hi : i = .skipKey x ∨ i = .skipNotKey x)
    (hk : (s.reg x).toNat = k.val) (h : exec i s = .next t) : t.key k = false := by
  obtain ⟨⟨u, hu, -, hclear, -⟩, ⟨u', hu', -, hclear', -⟩⟩ := keySkipsTestAndClear x k s hk
  obtain rfl | rfl := hi
  · cases hu.symm.trans h
    exact hclear
  · cases hu'.symm.trans h
    exact hclear'

/-- Settles O50: the first test cleared the latch, and the second reads it as it was left. -/
theorem secondKeyTestFindsNotPressed : Obligations.SecondKeyTestFindsNotPressed := by
  intro i x y s t u hi hindex hexec hsame hreg
  let k : Fin 16 := ⟨(s.reg x).toNat, Nat.lt_succ_of_le hindex⟩
  have hclear : ¬u.key k = true := by
    rw [hsame k, key_eq_false_of_exec_keySkip hi rfl hexec]
    exact Bool.false_ne_true
  obtain ⟨⟨r, hr, hpc, -⟩, ⟨r', hr', hpc', -⟩⟩ := keySkipsTestAndClear y k u (congrArg BitVec.toNat hreg)
  exact ⟨⟨r, hr, hpc.trans (if_neg hclear)⟩, ⟨r', hr', hpc'.trans (if_neg hclear)⟩⟩

/-- Settles O49: each skip fails the key check, and raising its error writes `Status` alone. -/
theorem keyIndexAboveFifteenIsFatal : Obligations.KeyIndexAboveFifteenIsFatal := by
  intro x s habove
  have herror : keyError (s.reg x).toNat = some (.keyIndexOutOfRange, some (s.reg x).toNat) := if_pos habove
  exact ⟨⟨_, exec_of_ownError (i := .skipKey x) herror, (frame_raise s _ _ _ _).onlyChanges, rfl⟩,
    ⟨_, exec_of_ownError (i := .skipNotKey x) herror, (frame_raise s _ _ _ _).onlyChanges, rfl⟩⟩

/-! ### The timers -/

/-- Settles O51: each of the three is one write, of the register or of the timer. -/
theorem timerInstructionsCopy : Obligations.TimerInstructionsCopy := fun x s =>
  ⟨⟨_, rfl, s.reg_setReg_self x _, s.setReg_only x _⟩, ⟨_, rfl, rfl, (frame_dt s _).onlyChanges⟩,
    ⟨_, rfl, rfl, (frame_st s _).onlyChanges⟩⟩

/-! ### The key-wait -/

/-- Settles O52: Get-key writes the two parts of the wait alone. -/
theorem getKeyStartsTheWait : Obligations.GetKeyStartsTheWait :=
  fun x s => ⟨_, rfl, rfl, rfl, (frame_wait s x).onlyChanges⟩

/-- R223: a step that runs Get-key leaves a running engine that waits for `V[x]`, at the next instruction, with no register written. -/
theorem State.runs.getKey_waits {s t : State} {x : Nibble} (h : s.runs (.getKey x)) (hstep : step s = .next t) :
    t.status = .running ∧ t.waiting = true ∧ t.waitReg = x ∧ t.pc = s.pc + 2 ∧ ∀ r, t.reg r = s.reg r := by
  obtain rfl : ({ s.afterFetch with waiting := true, waitReg := x } : State).timerTick = t :=
    Host.Outcome.next.inj ((h.step_eq rfl).symm.trans hstep)
  rw [State.timerTick_eq]
  exact ⟨rfl, rfl, rfl, rfl, fun _ => rfl⟩

/-- Settles O57: the wait blocks the step; the delivered key ends it and leaves `Status` and `pc`. -/
theorem getKeyThenDeliverResumes : Obligations.GetKeyThenDeliverResumes := by
  intro s t x k hruns hstep hk
  obtain ⟨hstatus, hwait, rfl, hpc, hregs⟩ := hruns.getKey_waits hstep
  have hblocked : stepBlocked t = some .stepWhileWaiting := by simp [stepBlocked, hstatus, hwait]
  obtain ⟨-, hkey, hresumed, -, -, honly⟩ := (deliverKeyWritesTheTarget t k).1 hwait hk
  have hpc' : (t.deliverKey k).state.pc = t.pc := honly.2 .pc (by decide)
  have hstatus' : (t.deliverKey k).state.status = t.status := honly.2 .status (by decide)
  refine ⟨step_of_stepBlocked hblocked, hregs _, hkey, hpc'.trans hpc, ?_, hresumed⟩
  rw [hstatus', hstatus]
  rfl

end Sys2Proof.Machine
end

section
/-!
PROOFS. Exceptions (spec/60_exceptions.md): an instruction's own error (R240, R247), `Tone` for one step only (R256), and the wait, in which
the machine is frozen until `deliver_key` (R261).
-/

namespace Sys2Proof.Machine

/-! ### The instruction's own error -/

/-- R104: an instruction that passes its check leaves `Status`, which is outside its frame. -/
theorem exec_status {i : Instr} {s t : State} (hok : ownError i s = none) (h : exec i s = .next t) : t.status = s.status :=
  (exec_frame hok h).2 .status (status_notMem_mayWrite i)

/-- Settles O14: an instruction whose check fails raises the error of that check; one whose check passes completes inside its frame. -/
theorem instructionsRaiseExactlyTheirOwnError : Obligations.InstructionsRaiseExactlyTheirOwnError := by
  refine fun i s => ⟨fun kind detail herror => exec_of_ownError herror, fun hok => ?_⟩
  obtain ⟨t, ht⟩ := exec_exists_next i s
  exact ⟨t, ht, exec_status hok ht⟩

/-! ### `Tone` -/

/-- Settles O12: a completed step ends in the tick, which sets `Tone` by the value of `ST` it finds. -/
theorem toneIsForOneStepOnly : Obligations.ToneIsForOneStepOnly := by
  intro s t j h hcompleted hj hst
  obtain ⟨hfault, -, -⟩ | ⟨i, u, hc, rfl⟩ := step_fatal_or_completes h
  · simp [hfault] at hcompleted
  · obtain rfl : i = j := Except.ok.inj (hc.decoded.symm.trans hj)
    rw [State.timerTick_tone, hc.st_eq]
    exact decide_eq_false hst

/-! ### The wait -/

/-- R101: the wait of a running engine blocks the step. -/
theorem stepBlocked_of_waiting {s : State} (hrun : s.status = .running) (hw : s.waiting = true) :
    stepBlocked s = some .stepWhileWaiting := by
  simp [stepBlocked, hrun, hw]

/-- Where the step is blocked, `step` leaves the host the state as it was. -/
theorem State.stepAnswer_of_stepBlocked {s : State} {f : Fault} (h : stepBlocked s = some f) :
    s.stepAnswer = { reply := .noStep f, state := s } := by
  rw [State.stepAnswer, step_of_stepBlocked h]

/-- R261: while the machine waits, which by the invariant only a running engine does, `load` and `step` leave everything. -/
theorem State.Inv.transact_of_waiting {a : Transaction} {s : State} (hs : s.Inv) (hw : s.waiting = true)
    (hkey : ∀ k, a ≠ .deliverKey k) (hmerge : ∀ p, a ≠ .mergeKeyState p) : (transact a s).state = s := by
  have hrun : s.status = .running := hs.waitingRuns hw
  cases a with
  | load bytes =>
    have hready : s.status ≠ .ready := by rw [hrun]; nofun
    rw [transact, State.load_of_not_ready hready]
  | step => rw [transact, State.stepAnswer_of_stepBlocked (stepBlocked_of_waiting hrun hw)]
  | deliverKey k => exact absurd rfl (hkey k)
  | mergeKeyState p => exact absurd rfl (hmerge p)

/-- Settles O58: a merge changes the latches alone, and every other transaction but `deliver_key` changes nothing. -/
theorem theWaitFreezesTheMachine : Obligations.TheWaitFreezesTheMachine := by
  refine fun a s hs hw hkey => ⟨?_, hs.transact_of_waiting hw hkey⟩
  by_cases hmerge : ∃ p, a = .mergeKeyState p
  · obtain ⟨p, rfl⟩ := hmerge
    exact State.mergeKeyState_keys s p
  · rw [hs.transact_of_waiting hw hkey (not_exists.1 hmerge)]

end Sys2Proof.Machine
end
